-- ==== Sys2Proof/Word.lean ====
section
/-! DEFINITION. The word of the machine: one whole byte (00_scope.md R9, 20_memory.md R47). -/

namespace Sys2Proof

/-- A byte: an unsigned 8-bit value, bit 7 the most significant (R9). -/
abbrev Byte := BitVec 8

end Sys2Proof
end

