-- ==== Sys2Proof/Config.lean ====
section
/-! DEFINITION. The implementation parameters (00_scope.md R7), their fixed and default values, and the
values the spec leaves open, which are constants without a body. -/

namespace Sys2Proof

/-- `ZERO_LEN_MODE` (R7, D7): how a MESSAGE frame of length 0 is read. -/
inductive ZeroLenMode where
  | immediate
  | hang
deriving DecidableEq, Repr

/-- The record variants a registry entry can name (43_message_codec_port.md R140). -/
inductive Variant where
  | text
  | uri
  | android
deriving DecidableEq, Repr

/-- The static parameters of one instance of the block (R7, R196).
They are plain data: `IsPrintable` is the union of the inclusive ranges of `printable`, and `MsgParse`
is the reference function of R150 over `registry` (log 2, log 6). -/
structure Params where
  /-- First preamble byte, and the reserved byte of the stuffing pass. -/
  mark0 : Byte
  /-- Second preamble byte, and the escape byte. -/
  mark1 : Byte
  /-- `IsPrintable`, as inclusive byte ranges. -/
  printable : List (Byte × Byte)
  /-- `INFO_CAP`: `none` is `unbounded`. -/
  infoCap : Option Nat
  zeroLenMode : ZeroLenMode
  /-- The record-type registry (R140): type name and variant. -/
  registry : List (List Byte × Variant)
deriving DecidableEq, Repr

/-- What R7 and R140 require of the parameters: a finite `INFO_CAP` is positive, and the registered
type names are 1 to 255 bytes long and unique. -/
def Params.wf (p : Params) : Prop :=
  p.infoCap ≠ some 0 ∧
  (∀ e ∈ p.registry, 1 ≤ e.1.length ∧ e.1.length ≤ 255) ∧
  (p.registry.map Prod.fst).Nodup

/-- `MARK0` of the hardware: OPEN (R7, D3, U1; log 1), so it has no body. -/
opaque Config.mark0 : Byte

/-- `MARK1` of the hardware: OPEN (R7, D3, U1; log 1), so it has no body. -/
opaque Config.mark1 : Byte

/-- Signal-level outputs the binding leaves unspecified (20_memory.md R51, U6; log 24): the value that
port number `port` shows at the `n`-th clock edge. -/
opaque Config.freeOutput (port n : Nat) : BitVec 16

/-- `BUF_CAP` (R7, 10_state.md R22). -/
def Config.bufCap : Nat := 65535

/-- `SUBST` (R7): the byte `?` that replaces an unprintable byte. -/
def Config.subst : Byte := 0x3F

/-- `RESP_CODES` (R7). -/
def Config.responseCodes : List Byte := [0xA0, 0xA1, 0xA2, 0xA4, 0xA5, 0xEF]

/-- The bytes of an ASCII string (R9; PRESUMED code points, G3, log 9). -/
def ascii (t : String) : List Byte := t.toList.map fun c => BitVec.ofNat 8 c.toNat

/-- The registry of R140. The Android type name is PRESUMED (G1; log 7). -/
def Config.registry : List (List Byte × Variant) :=
  [(ascii "T", .text), (ascii "U", .uri), (ascii "android.com:pkg", .android)]

/-- The parameters of this hardware: the OPEN marks, and the values of R7's table for the rest
(DESIGN CHOICE of the spec: logs 3, 4, 5). -/
def Config.params : Params where
  mark0 := Config.mark0
  mark1 := Config.mark1
  printable := [(0x20, 0x7E)]
  infoCap := none
  zeroLenMode := .immediate
  registry := Config.registry

end Sys2Proof
end

