-- ==== Sys2Proof/Syntax.lean ====
section
/-! DEFINITION. The instruction set as syntax: one constructor per row of spec/opcode_table.json, with
the operands its format gives it (30_encoding.md R60). -/

namespace Sys2Proof

/-- The response kinds and `NONE`: the values of the register `kind` (10_state.md R24). -/
inductive Kind where
  | none
  | version
  | ack
  | data
  | interrupt
  | message
  | error
deriving DecidableEq, Repr

/-- The seven inbound frame types (41_frame_types.md) and the outbound command (42_encoder.md). -/
inductive Instr where
  /-- VERSION, format F2 (R102). -/
  | version (d0 d1 : Byte)
  /-- ACK, format I (R103). -/
  | ack (info : Byte)
  /-- DATA, format F2 (R101). -/
  | data (d0 d1 : Byte)
  /-- INTERRUPT, format I (R105). -/
  | interrupt (info : Byte)
  /-- MESSAGE, format L (R100); the length field is the length of the payload. -/
  | message (payload : List Byte)
  /-- ERROR, format I (R104). -/
  | error (info : Byte)
  /-- INFOTEXT, format T (R106): a byte that is no response code. -/
  | infotext (b : Byte)
  /-- ENCODE, format C (R120): an outbound command. -/
  | encode (command : List Byte)
deriving DecidableEq, Repr

/-- Whether the decoder (and not the encoder) takes the instruction (R8). -/
def Instr.inbound : Instr → Bool
  | .version _ _ | .ack _ | .data _ _ | .interrupt _ | .message _ | .error _ | .infotext _ => true
  | .encode _ => false

end Sys2Proof
end

