-- ==== Sys2Proof/Decode.lean ====
section
/-! DEFINITION. Reading and writing the encodings of 30_encoding.md: the response-code map, the length
assembly, the frame decoder on bytes, the frame encoder on instructions, and the host's table words. -/

namespace Sys2Proof

/-- The 8-bit value of the register `kind` (10_state.md R24): the response code, `NONE` = 0x00. -/
def Kind.code : Kind → Byte
  | .none => 0x00
  | .version => 0xA0
  | .ack => 0xA1
  | .data => 0xA2
  | .interrupt => 0xA4
  | .message => 0xA5
  | .error => 0xEF

/-- `Classify` (R63). -/
def classify (b : Byte) : Kind :=
  if b = 0xA0 then .version
  else if b = 0xA1 then .ack
  else if b = 0xA2 then .data
  else if b = 0xA4 then .interrupt
  else if b = 0xA5 then .message
  else if b = 0xEF then .error
  else .none

/-- `IsCode` (R63). -/
def isCode (b : Byte) : Bool := classify b != .none

/-- `be16` (00_scope.md R9, R64): the first byte received is the high byte. -/
def be16 (h l : Byte) : BitVec 16 := h ++ l

/-- `be32` (R9), as the non-negative integer it is used as. -/
def be32 (a b c d : Byte) : Nat := ((a.toNat * 256 + b.toNat) * 256 + c.toNat) * 256 + d.toNat

/-- The high and the low byte of a 16-bit length (R61). -/
def lengthBytes (n : Nat) : Byte × Byte := (BitVec.ofNat 8 (n / 256), BitVec.ofNat 8 n)

/-- Why a byte sequence is not (yet) a frame. No byte value is illegal (R70), so only these two. -/
inductive DecodeReject where
  /-- There is no byte. -/
  | noBytes
  /-- The frame that the leading byte opens is not complete. -/
  | incompleteFrame (kind : Kind)
deriving DecidableEq, Repr

/-- What the frame decoder reads from bytes: an instruction and the bytes after it, or a refusal. -/
inductive Decoded where
  | frame (i : Instr) (rest : List Byte)
  | reject (why : DecodeReject)
deriving DecidableEq, Repr

/-- The bytes after the code of a format I frame (R66). -/
def decodeInfoByte (k : Kind) (mk : Byte → Instr) : List Byte → Decoded
  | b :: rest => .frame (mk b) rest
  | [] => .reject (.incompleteFrame k)

/-- The bytes after the code of a format F2 frame (R65). -/
def decodeFixedTwo (k : Kind) (mk : Byte → Byte → Instr) : List Byte → Decoded
  | d0 :: d1 :: rest => .frame (mk d0 d1) rest
  | _ => .reject (.incompleteFrame k)

/-- The bytes after the code of a format L frame (R64). -/
def decodeLengthDelimited : List Byte → Decoded
  | h :: l :: rest =>
    let n := (be16 h l).toNat
    if rest.length < n then .reject (.incompleteFrame .message)
    else .frame (.message (rest.take n)) (rest.drop n)
  | _ => .reject (.incompleteFrame .message)

/-- The first inbound frame of a byte sequence that starts in state Idle, told from its leading byte
(R62, R69). -/
def decode : List Byte → Decoded
  | [] => .reject .noBytes
  | b :: rest =>
    match classify b with
    | .version => decodeFixedTwo .version Instr.version rest
    | .ack => decodeInfoByte .ack Instr.ack rest
    | .data => decodeFixedTwo .data Instr.data rest
    | .interrupt => decodeInfoByte .interrupt Instr.interrupt rest
    | .message => decodeLengthDelimited rest
    | .error => decodeInfoByte .error Instr.error rest
    | .none => .frame (.infotext b) rest

/-- `Stuff` (R68, R120): an escape byte goes before every occurrence of the reserved byte. -/
def stuff (m0 m1 p : Byte) : List Byte := if p = m0 then [m1, p] else [p]

/-- `StuffAll` (R125). -/
def stuffAll (m0 m1 : Byte) (c : List Byte) : List Byte := c.flatMap (stuff m0 m1)

/-- The bytes of an instruction (R60), for the marker bytes `m0` and `m1` of the outbound format. -/
def encode (m0 m1 : Byte) : Instr → List Byte
  | .version d0 d1 => [0xA0, d0, d1]
  | .ack b => [0xA1, b]
  | .data d0 d1 => [0xA2, d0, d1]
  | .interrupt b => [0xA4, b]
  | .message p => 0xA5 :: (lengthBytes p.length).1 :: (lengthBytes p.length).2 :: p
  | .error b => [0xEF, b]
  | .infotext b => [b]
  | .encode c => m0 :: m1 :: stuffAll m0 m1 c

/-- Take the inserted escape bytes out of one outbound frame body with known bounds (R121, R125 item 3).
The block holds no such unit (R121): this reads the format, it is no part of the machine (log 22). -/
def unstuff (m0 m1 : Byte) : List Byte → Option (List Byte)
  | [] => some []
  | [b] => if b = m0 then none else some [b]
  | b :: p :: rest =>
    if b = m1 ∧ p = m0 then (unstuff m0 m1 rest).map (p :: ·)
    else if b = m0 then none
    else (unstuff m0 m1 (p :: rest)).map (b :: ·)

/-- One whole outbound frame with known bounds, as the command it carries (format C of R60; log 22). -/
def decodeOutbound (m0 m1 : Byte) : List Byte → Option Instr
  | a :: b :: body =>
    if a = m0 ∧ b = m1 then (unstuff m0 m1 body).map Instr.encode else none
  | _ => none

/-- How many bytes follow the leading byte of a frame (R69). -/
def bytesAfterLeading : List Byte → Nat
  | [] => 0
  | b :: rest =>
    match classify b with
    | .ack | .interrupt | .error => 1
    | .version | .data => 2
    | .message => 2 + (be16 (rest.getD 0 0) (rest.getD 1 0)).toNat
    | .none => 0

/-- The bytes of the table word `w` of `nbits` bits: bit 0 is the least significant bit of the first
byte, a later byte's bits count on from it. -/
def wordBytes (nbits w : Nat) : List Byte :=
  (List.range (nbits / 8)).map fun k => BitVec.ofNat 8 (w >>> (8 * k))

/-- The word's bytes as the inbound stream carries them, with zero operand bytes up to the end of the
frame that the leading byte opens. -/
def layoutInbound (nbits w : Nat) : List Byte :=
  let bs := wordBytes nbits w
  bs ++ List.replicate (1 + bytesAfterLeading bs - bs.length) 0

/-- Whether a table word is the 16-bit preamble pattern of the outbound row ENCODE; every inbound row
has 8 bits. -/
def isOutboundWord (nbits : Nat) : Bool := nbits == 16

/-- The instruction the decoder reads from a table word. The bits of the ENCODE row are the two
marker parameters themselves (opcode_table.json: "byte 0 = parameter MARK0"), so its word is read
under the markers it shows (log 21). -/
def decodeTableWord (nbits w : Nat) : Option Instr :=
  if isOutboundWord nbits then
    let bs := wordBytes nbits w
    decodeOutbound (bs.getD 0 0) (bs.getD 1 0) bs
  else
    match decode (layoutInbound nbits w) with
    | .frame i _ => some i
    | .reject _ => none

end Sys2Proof
end

