-- ==== Sys2Proof/Machine/State.lean ====
section
/-! DEFINITION. The state of the block: the frame session (10_state.md R20), the channels (20_memory.md
R40), the parameters (00_scope.md R7, R33) and the state of the signal-level binding (R26, R27). -/

namespace Sys2Proof.Machine

/-- The register `state` (R21). -/
inductive DecState where
  | idle
  | awaitingLength
  | awaitingData
  | awaitingInfoByte
deriving DecidableEq, Repr

/-- A variant's decoded fields (43_message_codec_port.md R141, R142, R144). -/
inductive Fields where
  | text (lang text : List Byte)
  | uri (protocolIndex : Nat) (remainder uri : List Byte)
  | android (packageName : List Byte)
deriving DecidableEq, Repr

/-- A record as the codec returns it (R147): the wire header is not kept (log 12). -/
structure Record where
  type : List Byte
  tnf : BitVec 3
  payload : List Byte
  fields : Fields
deriving DecidableEq, Repr

/-- `DecodeCause` (R146, 60_exceptions.md R164). -/
inductive DecodeCause where
  | truncatedStream (expected available : Nat)
  | unknownRecordType (name : List Byte)
  | malformedRecordPayload
  /-- Defined and never raised (R165). -/
  | unexpectedResponseCode
deriving DecidableEq, Repr

/-- The codec's reply: `Ok` or `Err` (R45). -/
inductive Parsed (α : Type) where
  | ok (a : α)
  | err (cause : DecodeCause)
deriving DecidableEq, Repr

/-- The two kinds a `DataReceived` event can carry (R160). -/
inductive DataKind where
  | data
  | version
deriving DecidableEq, Repr

/-- The payload of an `Error` event: its two sources (R160, R162). -/
inductive ErrInfo where
  | resp (info : Byte)
  | decode (cause : DecodeCause)
deriving DecidableEq, Repr

/-- The events (R160). -/
inductive Event where
  | informationText (text : List Byte)
  /-- Never produced by the block (R163). -/
  | connectStateChange
  | dataReceived (kind : DataKind) (data : List Byte)
  | messageDecoded (msg : List Record)
  | ack (info : Byte)
  | error (e : ErrInfo)
  | interrupt (info : Byte)
deriving DecidableEq, Repr

/-- The frame session: the five session registers (R20). -/
structure Session where
  /-- `state` (R21). -/
  state : DecState
  /-- `buf`, the source's `inboundBuffer` (R22). -/
  buf : List Byte
  /-- `explen`, the source's `expectedLength` (R23). -/
  explen : BitVec 16
  /-- `kind`, the source's `currentResponseKind` (R24). -/
  kind : Kind
  /-- `info`, the information buffer (R25). -/
  info : List Byte
deriving DecidableEq, Repr

/-- The session after reset (R33, R185; every register but `state` by the spec's own decisions D8 and
D14, log 13). It is also the canonical Idle of R35 with no text pending. -/
def Session.reset : Session where
  state := .idle
  buf := []
  explen := 0
  kind := .none
  info := []

/-- The one slot of the signal-level event port (R26, R51): the event and its payload window. -/
structure PendingEvent where
  event : Event
  window : List Byte
deriving DecidableEq, Repr

/-- The machine. -/
structure State where
  /-- The static parameters (R7, R196); no step writes them. -/
  par : Params
  session : Session
  /-- RX (R41): bytes pushed by the host and not yet consumed, oldest first. -/
  rx : List Byte
  /-- EV (R43): events delivered and not yet taken by the host, oldest first. -/
  ev : List Event
  /-- CMD (R44): commands submitted and not yet encoded, oldest first. -/
  cmd : List (List Byte)
  /-- TX (R42): outbound bytes not yet drained by the host, oldest first. -/
  tx : List Byte
  /-- Signal level (R26): the event produced and not yet accepted. -/
  evPending : Option PendingEvent
  /-- Signal level (R51): the payload of the outstanding MP request (log 23). -/
  mpPending : Option (List Byte)
  /-- Signal level (R27): output bytes not yet accepted by the byte sink. -/
  encPending : List Byte
  /-- The model's own counter of signal-level free values (log 24). -/
  free : Nat
deriving DecidableEq, Repr

/-- The block right after reset (R33), with empty channels (log 20) and this hardware's parameters. -/
def State.reset : State where
  par := Config.params
  session := Session.reset
  rx := []
  ev := []
  cmd := []
  tx := []
  evPending := none
  mpPending := none
  encPending := []
  free := 0

/-- The machine's faults. The block itself has none (R91, R167). -/
inductive Fault where
  /-- Raised by a decoder step on a session outside the domain of `DecStep` (R80: "defined for every
  session satisfying the invariants"): its `kind` has no arm in the case the step would take. Safe: the
  spec gives such a step no meaning, and no run from reset reaches one (log 18). -/
  | sessionOutsideDomain
deriving DecidableEq, Repr

/-- Why an instruction has no meaning. -/
inductive Refusal where
  /-- Raised by an arm of the dispatch whose instruction is not modelled yet (no arm is). Safe. -/
  | notModelled (mnemonic : String)
  /-- Raised by a meaning whose operand lies outside its format (R60, R106), so that no byte sequence
  encodes the term: an INFOTEXT of a response code, a MESSAGE payload over 65535 bytes. Safe: the
  decoder never produces such a term (log 19). -/
  | illFormed
deriving DecidableEq, Repr

end Sys2Proof.Machine
end

