-- ==== Sys2Proof/Machine/Encoder.lean ====
section
/-! DEFINITION. The frame encoder (42_encoder.md): its two primitive actions and the meaning of ENCODE. -/

namespace Sys2Proof.Machine

/-- `EncStart` (R123): the preamble goes to TX. -/
def encStart (s : State) : State := { s with tx := s.tx ++ [s.par.mark0, s.par.mark1] }

/-- `EncByte` (R123): one stuffed command byte goes to TX. -/
def encByte (s : State) (b : Byte) : State :=
  { s with tx := s.tx ++ stuff s.par.mark0 s.par.mark1 b }

/-- `ENCODE c` (R120) by its streaming decomposition (R123). No command is refused. -/
def execEncode (c : List Byte) (s : State) : Host.Outcome State Fault Refusal :=
  .next (c.foldl encByte (encStart s))

end Sys2Proof.Machine
end

