-- ==== Sys2Proof/Machine/Flags.lean ====
section
/-! DEFINITION. Flags. The block has no flags and no condition codes (10_state.md R30); the flags of the
spec are the five of the record header byte (43_message_codec_port.md R136). -/

namespace Sys2Proof.Machine

/-- The record header (R136): five flags and the type-name format. -/
structure Header where
  messageBegin : Bool
  messageEnd : Bool
  chunked : Bool
  shortRecord : Bool
  idLengthPresent : Bool
  tnf : BitVec 3
deriving DecidableEq, Repr

/-- A flag as a byte with that bit. -/
def flagBit (f : Bool) (i : Nat) : Byte := if f then 1#8 <<< i else 0#8

/-- `toByte` (R136). -/
def Header.toByte (h : Header) : Byte :=
  flagBit h.messageBegin 7 ||| flagBit h.messageEnd 6 ||| flagBit h.chunked 5 |||
    flagBit h.shortRecord 4 ||| flagBit h.idLengthPresent 3 ||| h.tnf.setWidth 8

/-- `fromByte` (R136): every byte is a valid header. -/
def Header.fromByte (b : Byte) : Header where
  messageBegin := b.getLsbD 7
  messageEnd := b.getLsbD 6
  chunked := b.getLsbD 5
  shortRecord := b.getLsbD 4
  idLengthPresent := b.getLsbD 3
  tnf := b.setWidth 3

end Sys2Proof.Machine
end

