-- ==== Sys2Proof/Machine/Codec.lean ====
section
/-! DEFINITION. The message codec behind the MP port, parse direction: the reference `MsgParse` of
43_message_codec_port.md (R138 to R144, R150). -/

namespace Sys2Proof.Machine

/-- The URI abbreviation table (R143), indices 0 to 35. Indices 2 to 34 are PRESUMED (G2; log 8). -/
def uriTable : List (List Byte) :=
  [ascii "", ascii "http://www.", ascii "https://www.",
   ascii "http://", ascii "https://", ascii "tel:",
   ascii "mailto:", ascii "ftp://anonymous:anonymous@", ascii "ftp://ftp.",
   ascii "ftps://", ascii "sftp://", ascii "smb://"] ++
  [ascii "nfs://", ascii "ftp://", ascii "dav://",
   ascii "news:", ascii "telnet://", ascii "imap:",
   ascii "rtsp://", ascii "urn:", ascii "pop:",
   ascii "sip:", ascii "sips:", ascii "tftp:"] ++
  [ascii "btspp://", ascii "btl2cap://", ascii "btgoep://",
   ascii "tcpobex://", ascii "irdaobex://", ascii "file://",
   ascii "urn:epc:id:", ascii "urn:epc:tag:", ascii "urn:epc:pat:",
   ascii "urn:epc:raw:", ascii "urn:epc:", ascii "urn:nfc:"]

/-- The TNF of a variant's records (R140). -/
def variantTnf : Variant → BitVec 3
  | .text => 1
  | .uri => 1
  | .android => 4

/-- `TextDecode` (R141): a payload under 3 bytes degrades, the first byte is not checked (log 11). -/
def textDecode : List Byte → Fields
  | _ :: l0 :: l1 :: text => .text [l0, l1] text
  | _ => .text (ascii "en") []

/-- `URIDecode` (R142): an index over 35 is clamped to 0. -/
def uriDecode : List Byte → Parsed Fields
  | [] => .err .malformedRecordPayload
  | i :: rest =>
    let k := if 35 < i.toNat then 0 else i.toNat
    .ok (.uri k rest (uriTable.getD k [] ++ rest))

/-- A variant's factory (R141, R142, R144). -/
def variantDecode (v : Variant) (payload : List Byte) : Parsed Fields :=
  match v with
  | .text => .ok (textDecode payload)
  | .uri => uriDecode payload
  | .android => .ok (.android payload)

/-- Look up a type name (R140): an exact comparison of bytes. -/
def registryLookup (reg : List (List Byte × Variant)) (name : List Byte) : Option Variant :=
  (reg.find? fun e => e.1 == name).map Prod.snd

/-- The record of a type name and a payload: registry lookup, then the factory (R138, R147). -/
def buildRecord (reg : List (List Byte × Variant)) (name payload : List Byte) : Parsed Record :=
  match registryLookup reg name with
  | none => .err (.unknownRecordType name)
  | some v =>
    match variantDecode v payload with
    | .err cause => .err cause
    | .ok fields => .ok { type := name, tnf := variantTnf v, payload := payload, fields := fields }

/-- The part of `ParseRecord` (R138) after the header, type-length and length fields, which took
`headLen` bytes: the type name, the payload, the record. -/
def parseBody (reg : List (List Byte × Variant)) (typeLen recLen : Nat) (body : List Byte)
    (headLen : Nat) : Parsed (Record × Nat) :=
  if body.length < typeLen then .err (.truncatedStream typeLen body.length)
  else
    let name := body.take typeLen
    let tail := body.drop typeLen
    if tail.length < recLen then .err (.truncatedStream recLen tail.length)
    else
      match buildRecord reg name (tail.take recLen) with
      | .err cause => .err cause
      | .ok r => .ok (r, headLen + typeLen + recLen)

/-- `ParseRecord` (R138) on the bytes from the record's offset to the end of the buffer: the record and
how many bytes it took. The counts of the second and third check are the spec's own (log 10). -/
def parseRecord (reg : List (List Byte × Variant)) (bs : List Byte) : Parsed (Record × Nat) :=
  match bs with
  | hdr :: typeLen :: l0 :: l1 :: rest =>
    if (Header.fromByte hdr).shortRecord then parseBody reg typeLen.toNat l0.toNat (l1 :: rest) 3
    else
      match rest with
      | l2 :: l3 :: body => parseBody reg typeLen.toNat (be32 l0 l1 l2 l3) body 6
      | _ => .err (.truncatedStream 6 bs.length)
  | _ => .err (.truncatedStream 4 bs.length)

/-- The loop of `ParseMessage` (R139), with fuel. A record takes at least 3 bytes, so a fuel of the
buffer's length never runs out (log 30). -/
def parseLoop (reg : List (List Byte × Variant)) : Nat → List Byte → Parsed (List Record)
  | _, [] => .ok []
  | 0, b :: rest => .err (.truncatedStream 4 (b :: rest).length)
  | fuel + 1, b :: rest =>
    match parseRecord reg (b :: rest) with
    | .err cause => .err cause
    | .ok (r, n) =>
      match parseLoop reg fuel ((b :: rest).drop n) with
      | .err cause => .err cause
      | .ok m => .ok (r :: m)

/-- `ParseMessage` (R139), the reference `MsgParse` (R150). -/
def msgParse (reg : List (List Byte × Variant)) (buf : List Byte) : Parsed (List Record) :=
  parseLoop reg buf.length buf

end Sys2Proof.Machine
end

