-- ==== Sys2Proof/Machine/Operands.lean ====
section
/-! DEFINITION. Operand forms and the numeric codes of the block's own enumerations: the filter of an
information byte, the payload of each event, and the codes of states, event tags and causes. -/

namespace Sys2Proof.Machine

/-- `IsPrintable` (00_scope.md R7, D4): the byte lies in one of the ranges. -/
def isPrintable (p : Params) (b : Byte) : Bool :=
  p.printable.any fun r => decide (r.1 ≤ b) && decide (b ≤ r.2)

/-- `Filter` (30_encoding.md R67). -/
def filter (p : Params) (b : Byte) : Byte := if isPrintable p b then b else Config.subst

/-- The 2-bit code of the register `state` (10_state.md R21). -/
def DecState.code : DecState → BitVec 2
  | .idle => 0
  | .awaitingLength => 1
  | .awaitingData => 2
  | .awaitingInfoByte => 3

/-- The response code of a `DataReceived` event (20_memory.md R51, `ev_code`). -/
def DataKind.code : DataKind → Byte
  | .data => Kind.code .data
  | .version => Kind.code .version

/-- The event tag code (60_exceptions.md R161). -/
def Event.tag : Event → BitVec 3
  | .informationText _ => 0
  | .connectStateChange => 1
  | .dataReceived _ _ => 2
  | .messageDecoded _ => 3
  | .ack _ => 4
  | .error _ => 5
  | .interrupt _ => 6

/-- The cause code (R164). -/
def DecodeCause.code : DecodeCause → Byte
  | .truncatedStream _ _ => 1
  | .unknownRecordType _ => 2
  | .malformedRecordPayload => 3
  | .unexpectedResponseCode => 4

/-- The port `ev_code` for an event (R51). -/
def Event.portCode : Event → Byte
  | .dataReceived k _ => k.code
  | .ack b => b
  | .interrupt b => b
  | .error (.resp b) => b
  | .error (.decode c) => c.code
  | .informationText _ => 0
  | .connectStateChange => 0
  | .messageDecoded _ => 0

/-- The port `ev_src` for an event (R51): 1 for a failed parse only. -/
def Event.portSrc : Event → Bool
  | .error (.decode _) => true
  | _ => false

/-- The payload window of an event (R51); `raw` is the MESSAGE payload it was parsed from. -/
def Event.window (raw : List Byte) : Event → List Byte
  | .informationText t => t
  | .dataReceived _ d => d
  | .messageDecoded _ => raw
  | .error (.decode _) => raw
  | .connectStateChange => []
  | .ack _ => []
  | .error (.resp _) => []
  | .interrupt _ => []

/-- Whether the event is a reply of the message codec (20_memory.md R45). -/
def Event.fromCodec : Event → Bool
  | .messageDecoded _ => true
  | .error (.decode _) => true
  | _ => false

end Sys2Proof.Machine
end

