-- ==== Sys2Proof/Machine/Ops.lean ====
section
/-! DEFINITION. The shared operations: the actions the decoder's step is built from (40_decoder_step.md
R81, R85, R87, R88), decode-error entry (60_exceptions.md R166), and the block's reset (R185). -/

namespace Sys2Proof.Machine

/-- `ToIdle` (R81): the return to Idle at every frame boundary; `info` is not touched. -/
def Session.toIdle (S : Session) : Session :=
  { S with state := .idle, buf := [], explen := 0, kind := .none }

/-- `FlushInfo` (R88). -/
def flushInfo (S : Session) : Session × List Event :=
  match S.info with
  | [] => (S, [])
  | b :: t => ({ S with info := [] }, [.informationText (b :: t)])

/-- Decode-error entry (R166): the event, then `ToIdle`; nothing is saved and no mode changes. There is
no return from it and nothing to restore (R167): the next byte is classified from canonical Idle. -/
def raiseDecode (cause : DecodeCause) (S : Session) : Session × List Event :=
  (S.toIdle, [.error (.decode cause)])

/-- The completion of a MESSAGE frame: one call of `MsgParse` on the whole payload (R85, R45). -/
def completeMessage (p : Params) (S : Session) : Session × List Event :=
  match msgParse p.registry S.buf with
  | .ok m => (S.toIdle, [.messageDecoded m])
  | .err cause => raiseDecode cause S

/-- `Complete` (R85). The other four kinds lie outside its domain (R85: "cannot be"; log 18). -/
def complete (p : Params) (S : Session) : Session × List Event :=
  match S.kind with
  | .message => completeMessage p S
  | .data => (S.toIdle, [.dataReceived .data S.buf])
  | .version => (S.toIdle, [.dataReceived .version S.buf])
  | .none | .ack | .error | .interrupt => (S.toIdle, [])

/-- Whether `info` has reached a finite `INFO_CAP` (R87). -/
def infoFull (p : Params) (info : List Byte) : Bool :=
  match p.infoCap with
  | none => false
  | some cap => info.length == cap

/-- `AccumulateInfo` (R87): append the filtered byte; an early flush when a finite `INFO_CAP` is met. -/
def accumulateInfo (p : Params) (S : Session) (b : Byte) : Session × List Event :=
  let S1 := { S with info := S.info ++ [filter p b] }
  if infoFull p S1.info then flushInfo S1 else (S1, [])

/-- The kinds for which the step taken in a non-Idle state has an arm (R80, R83 to R86, R32; log 18). -/
def Session.inDomain (S : Session) : Bool :=
  match S.state with
  | .idle => true
  | .awaitingLength => S.kind == .message
  | .awaitingData => S.kind == .message || S.kind == .data || S.kind == .version
  | .awaitingInfoByte => S.kind == .ack || S.kind == .error || S.kind == .interrupt

/-- The block's reset (70_reset_and_hazards.md R185, R186): the session, the pending event, the
outstanding request and the pending output go; parameters, delivered events and TX bytes stay. -/
def State.applyReset (s : State) : State :=
  { s with session := Session.reset, evPending := none, mpPending := none, encPending := [] }

end Sys2Proof.Machine
end

