-- ==== Sys2Proof/Machine/Decoder.lean ====
section
/-! DEFINITION. The frame decoder's step function and its runs (40_decoder_step.md R80 to R93). -/

namespace Sys2Proof.Machine

/-- The opening of a frame by its code byte (R82), after the flush. -/
def openFrame (b : Byte) (S : Session) : Session :=
  match classify b with
  | .message => { S with kind := .message, buf := [], state := .awaitingLength }
  | .data => { S with kind := .data, buf := [], explen := 2, state := .awaitingData }
  | .version => { S with kind := .version, buf := [], explen := 2, state := .awaitingData }
  | .ack => { S with kind := .ack, buf := [b], state := .awaitingInfoByte }
  | .error => { S with kind := .error, buf := [b], state := .awaitingInfoByte }
  | .interrupt => { S with kind := .interrupt, buf := [b], state := .awaitingInfoByte }
  | .none => S

/-- `StepIdle` (R82). -/
def stepIdle (p : Params) (S : Session) (b : Byte) : Session × List Event :=
  if isCode b then (openFrame b (flushInfo S).1, (flushInfo S).2) else accumulateInfo p S b

/-- `StepLength` (R83). -/
def stepLength (p : Params) (S : Session) (b : Byte) : Session × List Event :=
  match S.buf with
  | [] => ({ S with buf := [b] }, [])
  | h :: _ =>
    let S1 := { S with explen := be16 h b, buf := [], state := .awaitingData }
    if S1.explen = 0 then
      match p.zeroLenMode with
      | .immediate => complete p S1
      | .hang => (S1, [])
    else (S1, [])

/-- `StepHang` (R93): the byte is absorbed, the buffer saturates at `BUF_CAP`. -/
def stepHang (S : Session) (b : Byte) : Session × List Event :=
  if S.buf.length < Config.bufCap then ({ S with buf := S.buf ++ [b] }, []) else (S, [])

/-- `StepData` (R84). -/
def stepData (p : Params) (S : Session) (b : Byte) : Session × List Event :=
  if S.explen = 0 then stepHang S b
  else
    let S1 := { S with buf := S.buf ++ [b] }
    if S1.buf.length = S1.explen.toNat then complete p S1 else (S1, [])

/-- The event of a format I frame, by the kind that opened it (R86). -/
def infoByteEvent (k : Kind) (b : Byte) : List Event :=
  match k with
  | .ack => [.ack b]
  | .error => [.error (.resp b)]
  | .interrupt => [.interrupt b]
  | .none | .version | .data | .message => []

/-- `StepInfoByte` (R86). -/
def stepInfoByte (S : Session) (b : Byte) : Session × List Event :=
  let S1 := { S with buf := S.buf ++ [b] }
  (S1.toIdle, infoByteEvent S1.kind b)

/-- `DecStep` (R80): one byte, dispatched on `state` alone. -/
def decStep (p : Params) (S : Session) (b : Byte) : Session × List Event :=
  match S.state with
  | .idle => stepIdle p S b
  | .awaitingLength => stepLength p S b
  | .awaitingData => stepData p S b
  | .awaitingInfoByte => stepInfoByte S b

/-- `DecRun` (R92): the bytes in order, the events concatenated. -/
def decRun (p : Params) (S : Session) : List Byte → Session × List Event
  | [] => (S, [])
  | b :: w =>
    let first := decStep p S b
    let later := decRun p first.1 w
    (later.1, first.2 ++ later.2)

/-- Push bytes through the decoder: `DecRun` on the session, the events delivered in order (20_memory.md
R41, R43). A session outside `DecStep`'s domain (R80) stops the machine (log 18). -/
def feed (w : List Byte) (s : State) : Host.Outcome State Fault Refusal :=
  if s.session.inDomain then
    let r := decRun s.par s.session w
    .next { s with session := r.1, ev := s.ev ++ r.2 }
  else .fault .sessionOutsideDomain

end Sys2Proof.Machine
end

