-- ==== Sys2Proof/WellFormed.lean ====
section
/-! DEFINITION. The operand ranges of 30_encoding.md R60: which instruction terms have an encoding. -/

namespace Sys2Proof

/-- An INFOTEXT byte is no response code (R106); a MESSAGE length fits 16 bits (R60, R64); every other
operand takes every value (R101 to R105, R120). -/
def Instr.wf : Instr → Bool
  | .version _ _ => true
  | .ack _ => true
  | .data _ _ => true
  | .interrupt _ => true
  | .message p => decide (p.length ≤ Config.bufCap)
  | .error _ => true
  | .infotext b => !Config.responseCodes.contains b
  | .encode _ => true

end Sys2Proof
end

