-- ==== Sys2Proof/Machine/Frames.lean ====
section
/-! DEFINITION. The meanings of the seven inbound frame types (41_frame_types.md). Each is the run of the
decoder over the frame's bytes, which is the definition that file names; in a state other than Idle the
same bytes are data of the frame in progress (30_encoding.md R72; log 17). -/

namespace Sys2Proof.Machine

/-- `VERSION d0 d1` (R102). -/
def execVersion (d0 d1 : Byte) (s : State) : Host.Outcome State Fault Refusal :=
  feed [Kind.code .version, d0, d1] s

/-- `ACK b` (R103). -/
def execAck (b : Byte) (s : State) : Host.Outcome State Fault Refusal :=
  feed [Kind.code .ack, b] s

/-- `DATA d0 d1` (R101). -/
def execData (d0 d1 : Byte) (s : State) : Host.Outcome State Fault Refusal :=
  feed [Kind.code .data, d0, d1] s

/-- `INTERRUPT b` (R105). -/
def execInterrupt (b : Byte) (s : State) : Host.Outcome State Fault Refusal :=
  feed [Kind.code .interrupt, b] s

/-- `MESSAGE p` (R100): the code, the 16-bit length, the payload. -/
def execMessage (payload : List Byte) (s : State) : Host.Outcome State Fault Refusal :=
  if payload.length ≤ Config.bufCap then
    feed (Kind.code .message :: (lengthBytes payload.length).1 :: (lengthBytes payload.length).2
      :: payload) s
  else .refused .illFormed

/-- `ERROR b` (R104). -/
def execError (b : Byte) (s : State) : Host.Outcome State Fault Refusal :=
  feed [Kind.code .error, b] s

/-- `INFOTEXT b` (R106): the byte itself, which is no response code. -/
def execInfotext (b : Byte) (s : State) : Host.Outcome State Fault Refusal :=
  if isCode b then .refused .illFormed else feed [b] s

end Sys2Proof.Machine
end

