-- ==== Sys2Proof/Machine/Dispatch.lean ====
section
/-! DEFINITION. The dispatch: one arm per instruction, each one call of its meaning. -/

namespace Sys2Proof.Machine

def exec (i : Instr) (s : State) : Host.Outcome State Fault Refusal :=
  match i with
  | .version d0 d1 => Sys2Proof.Machine.execVersion d0 d1 s
  | .ack b => Sys2Proof.Machine.execAck b s
  | .data d0 d1 => Sys2Proof.Machine.execData d0 d1 s
  | .interrupt b => Sys2Proof.Machine.execInterrupt b s
  | .message p => Sys2Proof.Machine.execMessage p s
  | .error b => Sys2Proof.Machine.execError b s
  | .infotext b => Sys2Proof.Machine.execInfotext b s
  | .encode c => Sys2Proof.Machine.execEncode c s

end Sys2Proof.Machine
end

