-- ==== Sys2Proof/Machine/Fetch.lean ====
section
/-! DEFINITION. What the next step takes: a command or one byte (00_scope.md R8, R11; log 15), and how
the host's table words are placed (log 21). -/

namespace Sys2Proof.Machine

/-- What the next step takes from the channels, with what it leaves in them. -/
inductive Fetched where
  /-- The encoder's turn: the oldest command. -/
  | command (c : List Byte) (cmd : List (List Byte))
  /-- The decoder's turn: the oldest byte. -/
  | byte (b : Byte) (rx : List Byte)
  /-- No agent is enabled (R8). -/
  | nothing
deriving DecidableEq, Repr

/-- The decoder's turn: one byte, and never without one (R8). -/
def fetchInbound : List Byte → Fetched
  | [] => .nothing
  | b :: rx => .byte b rx

/-- The next piece of work. Commands go first: the two paths share no state, so any interleaving gives
the same result (20_memory.md R55; log 15). -/
def fetch (s : State) : Fetched :=
  match s.cmd with
  | c :: cmd => .command c cmd
  | [] => fetchInbound s.rx

/-- A session in Idle: itself if it is, else the one after `ToIdle`. -/
def Session.atBoundary (S : Session) : Session := if S.state = .idle then S else S.toIdle

/-- An inbound frame of which every byte but the last has been received, and the last is the next in RX:
the next step runs it (log 21). No command waits. -/
def placeFrame (s : State) (bytes : List Byte) : State :=
  let received := decRun s.par s.session.atBoundary bytes.dropLast
  { s with
    session := received.1
    ev := s.ev ++ received.2
    rx := bytes.getLast?.toList ++ s.rx
    cmd := [] }

/-- The empty command in CMD, under the markers that the bits of the ENCODE row show (log 21). -/
def placeCommand (s : State) (nbits w : Nat) : State :=
  let bs := wordBytes nbits w
  { s with par := { s.par with mark0 := bs.getD 0 0, mark1 := bs.getD 1 0 }, cmd := [] :: s.cmd }

/-- Place a table word where the next step takes its instruction from (log 21). -/
def placeWord (s : State) (nbits w : Nat) : State :=
  if isOutboundWord nbits then placeCommand s nbits w
  else
    match decode (layoutInbound nbits w) with
    | .frame i _ => placeFrame s (encode s.par.mark0 s.par.mark1 i)
    | .reject _ => s

end Sys2Proof.Machine
end

