-- ==== Sys2Proof/Machine/Step.lean ====
section
/-! DEFINITION. One step of the machine. -/

namespace Sys2Proof.Machine

/-- One step (00_scope.md R8, R11): the encoder takes one command, or the decoder takes one byte, or no
agent is enabled and the state stays (60_exceptions.md R172; log 16). An inbound instruction is as many
steps as it has bytes (log 14). -/
def step (s : State) : Host.Outcome State Fault Refusal :=
  match fetch s with
  | .command c cmd => exec (.encode c) { s with cmd := cmd }
  | .byte b rx => feed [b] { s with rx := rx }
  | .nothing => .next s

/-- The state with a table word placed where the next step fetches (log 21). -/
def State.withFetchWord (s : State) (nbits w : Nat) : State := placeWord s nbits w

end Sys2Proof.Machine
end

