-- ==== Sys2Proof/Machine/CodecSerialize.lean ====
section
/-! DEFINITION. The message codec, serialize direction (43_message_codec_port.md R145) and the variants'
payload encoders (R141, R142, R144). Not on the decoder's path: the host builds command bytes with it. -/

namespace Sys2Proof.Machine

/-- The 4 big-endian bytes of a length (R137). A length of 2^32 or more has no such bytes and the spec does
not say what `Serialize` gives then: the bytes are those of the length modulo 2^32 (DESIGN CHOICE, log 31). -/
def be32Bytes (n : Nat) : List Byte :=
  [BitVec.ofNat 8 (n / 16777216), BitVec.ofNat 8 (n / 65536), BitVec.ofNat 8 (n / 256),
   BitVec.ofNat 8 n]

/-- `SerializeRecord` (R145). The type-length byte of a name over 255 bytes, which R147 rules out, is that of
its length modulo 256 (DESIGN CHOICE, log 31). -/
def serializeRecord (r : Record) (isFirst isLast : Bool) : List Byte :=
  let sr := decide (r.payload.length < 256)
  let hdr : Header :=
    { messageBegin := isFirst, messageEnd := isLast, chunked := false, shortRecord := sr,
      idLengthPresent := false, tnf := r.tnf }
  let len := if sr then [BitVec.ofNat 8 r.payload.length] else be32Bytes r.payload.length
  [hdr.toByte, BitVec.ofNat 8 r.type.length] ++ len ++ r.type ++ r.payload

/-- The records of a message from one that is the first or not; the last one ends the message (R145). -/
def serializeFrom (isFirst : Bool) : List Record → List Byte
  | [] => []
  | [r] => serializeRecord r isFirst true
  | r :: r' :: rest => serializeRecord r isFirst false ++ serializeFrom false (r' :: rest)

/-- `Serialize` (R145). -/
def serialize (m : List Record) : List Byte := serializeFrom true m

/-- `TextEncodePayload` (R141); a language over 255 bytes has its length modulo 256 (log 31). -/
def textEncodePayload (lang text : List Byte) : List Byte :=
  BitVec.ofNat 8 lang.length :: (lang ++ text)

/-- An ASCII letter in lower case (log 28). -/
def lowerByte (b : Byte) : Byte := if 0x41 ≤ b ∧ b ≤ 0x5A then b + 0x20 else b

/-- Case-insensitive prefix, on ASCII letters (log 28). -/
def isPrefixNoCase (pre uri : List Byte) : Bool :=
  decide (pre.length ≤ uri.length) && ((uri.take pre.length).map lowerByte == pre.map lowerByte)

/-- The first table index, from `k` upward over `table`, whose entry is a prefix of the URI; else 0
(R142, 90_conflicts.md C4). -/
def uriIndexFrom (uri : List Byte) : Nat → List (List Byte) → Nat
  | _, [] => 0
  | k, pre :: rest => if isPrefixNoCase pre uri then k else uriIndexFrom uri (k + 1) rest

/-- The protocol index of a URI: table order, scanning from index 1 (R142, C4). -/
def uriIndex (uri : List Byte) : Nat := uriIndexFrom uri 1 (uriTable.drop 1)

/-- URI encode (R142): the index byte and the URI with that prefix stripped. -/
def uriEncodePayload (uri : List Byte) : List Byte :=
  let k := uriIndex uri
  BitVec.ofNat 8 k :: uri.drop (uriTable.getD k []).length

/-- Android encode (R144): a transparent copy. -/
def androidEncodePayload (packageName : List Byte) : List Byte := packageName

end Sys2Proof.Machine
end

