-- ==== Sys2Proof/Machine/HostPort.lean ====
section
/-! DEFINITION. The host's moves at the transaction level (70_reset_and_hazards.md R199): inputs between
steps, never taken by the machine's own step. -/

namespace Sys2Proof.Machine

/-- What the host can do to the block. There is one driver (R190); an MP request is answered inside the
step (20_memory.md R45). -/
inductive HostMove where
  /-- Push a chunk to RX. -/
  | push (chunk : List Byte)
  /-- Take the oldest delivered event. -/
  | takeEvent
  /-- Submit a command to CMD. -/
  | submit (command : List Byte)
  /-- Drain the oldest bytes of TX. -/
  | drain (count : Nat)
  /-- Assert reset (R185). -/
  | reset
deriving DecidableEq, Repr

/-- The state after a host move. -/
def State.afterMove (s : State) : HostMove → State
  | .push chunk => { s with rx := s.rx ++ chunk }
  | .takeEvent => { s with ev := s.ev.drop 1 }
  | .submit command => { s with cmd := s.cmd ++ [command] }
  | .drain count => { s with tx := s.tx.drop count }
  | .reset => s.applyReset

end Sys2Proof.Machine
end

