-- ==== Sys2Proof/Machine/Signals.lean ====
section
/-! DEFINITION. The signal-level binding (20_memory.md R50 to R53): the ports of the block and one rising
edge of its clock. It adds no behaviour to the transaction level, and the machine's step does not use it
(00_scope.md R12; log 23). -/

namespace Sys2Proof.Machine

/-- The input ports sampled at an edge (R50, R51, R52). `mpAnswer` is the codec's answer to the
outstanding MP request, whose port the spec does not draw (log 23). -/
structure EdgeIn where
  rst : Bool
  rxValid : Bool
  rxData : Byte
  evReady : Bool
  evRaddr : BitVec 16
  mpAnswer : Bool
  cmdValid : Bool
  cmdSof : Bool
  cmdData : Byte
  txReady : Bool
deriving DecidableEq, Repr

/-- An edge at which the host does nothing. -/
def EdgeIn.quiet : EdgeIn where
  rst := false
  rxValid := false
  rxData := 0
  evReady := false
  evRaddr := 0
  mpAnswer := false
  cmdValid := false
  cmdSof := false
  cmdData := 0
  txReady := false

/-- The output ports (R51, R52). -/
structure EdgeOut where
  rxReady : Bool
  evValid : Bool
  evKind : BitVec 3
  evCode : Byte
  evSrc : Bool
  evLen : BitVec 16
  evRdata : Byte
  cmdReady : Bool
  txValid : Bool
  txData : Byte
deriving DecidableEq, Repr

/-- `rx_ready` (R51): no event pending and no MP request outstanding. -/
def State.rxReady (s : State) : Bool := s.evPending.isNone && s.mpPending.isNone

/-- `cmd_ready` (R52): no output byte still held. -/
def State.cmdReady (s : State) : Bool := s.encPending.isEmpty

/-- `ev_len` (R51). A window over 65535 bytes, which a physical build rules out by `INFO_CAP`, has no
length the port can carry: a free value (log 24). -/
def windowLength (n : Nat) (window : List Byte) : BitVec 16 :=
  if window.length < 65536 then BitVec.ofNat 16 window.length else Config.freeOutput 4 n

/-- `ev_rdata` (R51): the byte of the window, a free value outside it (U6; log 24). -/
def windowByte (n : Nat) (window : List Byte) (addr : BitVec 16) : Byte :=
  if addr < windowLength n window then window.getD addr.toNat 0
  else (Config.freeOutput 5 n).setWidth 8

/-- The event fields while no event is pending: `ev_code` and `ev_src` are 0 (R51, "Otherwise 0"); the
tag, the length and the window are free values (U6; log 24). -/
def idleEventPorts (n : Nat) (out : EdgeOut) : EdgeOut :=
  { out with
    evValid := false
    evKind := (Config.freeOutput 1 n).setWidth 3
    evCode := 0
    evSrc := false
    evLen := Config.freeOutput 4 n
    evRdata := (Config.freeOutput 5 n).setWidth 8 }

/-- The event fields while an event is pending (R51). -/
def pendingEventPorts (n : Nat) (addr : BitVec 16) (e : PendingEvent) (out : EdgeOut) : EdgeOut :=
  { out with
    evValid := true
    evKind := e.event.tag
    evCode := e.event.portCode
    evSrc := e.event.portSrc
    evLen := windowLength n e.window
    evRdata := windowByte n e.window addr }

/-- The output ports at an edge, as a function of the state and of the read address `ev_raddr` that the
host drives (R51, R52). -/
def State.outputs (s : State) (i : EdgeIn) : EdgeOut :=
  let base : EdgeOut :=
    { rxReady := s.rxReady, evValid := false, evKind := 0, evCode := 0, evSrc := false, evLen := 0,
      evRdata := 0, cmdReady := s.cmdReady, txValid := !s.encPending.isEmpty,
      txData := s.encPending.headD ((Config.freeOutput 6 s.free).setWidth 8) }
  match s.evPending with
  | none => idleEventPorts s.free base
  | some e => pendingEventPorts s.free i.evRaddr e base

/-- The codec's reply to an MP request, as the event it becomes (R45, R85). -/
def codecReply (p : Params) (raw : List Byte) : Event :=
  match msgParse p.registry raw with
  | .ok m => .messageDecoded m
  | .err cause => .error (.decode cause)

/-- The payload that the completing byte `b` of a MESSAGE frame hands to the codec (R83, R84). -/
def completedPayload (S : Session) (b : Byte) : List Byte :=
  match S.state with
  | .awaitingData => S.buf ++ [b]
  | .idle | .awaitingLength | .awaitingInfoByte => []

/-- The accepted byte of an edge: exactly one `DecStep` (R51). An event of the codec waits for its
answer (log 23); any other is pending at once. -/
def takeByte (b : Byte) (s : State) : Host.Outcome State Fault Refusal :=
  if s.session.inDomain then
    let r := decStep s.par s.session b
    let s1 := { s with session := r.1 }
    match r.2 with
    | [] => .next s1
    | e :: _ =>
      if e.fromCodec then .next { s1 with mpPending := some (completedPayload s.session b) }
      else .next { s1 with evPending := some { event := e, window := e.window [] } }
  else .fault .sessionOutsideDomain

/-- The decoder at an edge (R51): a pending event is held until it is accepted, an outstanding request
until it is answered; only then is a byte taken. -/
def decoderEdge (i : EdgeIn) (s : State) : Host.Outcome State Fault Refusal :=
  match s.evPending with
  | some e => if i.evReady then .next { s with evPending := none, ev := s.ev ++ [e.event] } else .next s
  | none =>
    match s.mpPending with
    | some raw =>
      if i.mpAnswer then
        .next { s with
          mpPending := none, evPending := some { event := codecReply s.par raw, window := raw } }
      else .next s
    | none => if i.rxValid then takeByte i.rxData s else .next s

/-- The encoder at an edge (R52): a held output byte goes to the sink when it is taken; with none held,
a beat is `EncStart` or `EncByte` (R123). -/
def encoderEdge (i : EdgeIn) (s : State) : State :=
  match s.encPending with
  | b :: rest => if i.txReady then { s with encPending := rest, tx := s.tx ++ [b] } else s
  | [] =>
    if i.cmdValid then
      if i.cmdSof then { s with encPending := [s.par.mark0, s.par.mark1] }
      else { s with encPending := stuff s.par.mark0 s.par.mark1 i.cmdData }
    else s

/-- One rising edge of the clock (R50): reset whatever the other inputs are, else the two halves, which
share no state. The free counter moves on (log 24). -/
def clockEdge (i : EdgeIn) (s : State) : Host.Outcome State Fault Refusal :=
  let s0 := { s with free := s.free + 1 }
  if i.rst then .next s0.applyReset else decoderEdge i (encoderEdge i s0)

/-- A sequence of edges, stopping at a fault. -/
def clockRun : List EdgeIn → State → Host.Outcome State Fault Refusal
  | [], s => .next s
  | i :: rest, s =>
    match clockEdge i s with
    | .next t => clockRun rest t
    | .fault f => .fault f
    | .refused r => .refused r

end Sys2Proof.Machine
end

