-- ==== Sys2Proof/Safety.lean ====
section
/-! DEFINITION. What a sound state and a safe run are: the invariants of 10_state.md R32, the shape of
events (60_exceptions.md R160), and runs without a fault or a refusal. -/

namespace Sys2Proof.Machine

/-- `pre(t)` of 41_frame_types.md: the flush that an opening byte causes. -/
def preText (t : List Byte) : List Event := if t = [] then [] else [.informationText t]

/-- What a session holds inside AwaitingData (R32 item 3; R93 for the HANG mode). -/
def Session.dataInv (p : Params) (S : Session) : Prop :=
  (S.kind = .message ∨ S.kind = .data ∨ S.kind = .version) ∧
  S.info = [] ∧
  (S.kind ≠ .message → S.explen = 2) ∧
  match p.zeroLenMode with
  | .immediate => S.buf.length < S.explen.toNat
  | .hang => (S.explen = 0 ∧ S.buf.length ≤ Config.bufCap) ∨ S.buf.length < S.explen.toNat

/-- What the session holds in each decode state (R32 items 1 to 4). -/
def Session.stateInv (p : Params) (S : Session) : Prop :=
  match S.state with
  | .idle => S.buf = [] ∧ S.explen = 0 ∧ S.kind = .none
  | .awaitingLength => S.kind = .message ∧ S.buf.length ≤ 1 ∧ S.info = []
  | .awaitingData => S.dataInv p
  | .awaitingInfoByte =>
    (S.kind = .ack ∨ S.kind = .error ∨ S.kind = .interrupt) ∧ S.buf = [S.kind.code] ∧ S.info = []

/-- What the information buffer holds (R32 items 5 and 6, R25). -/
def Session.infoInv (p : Params) (S : Session) : Prop :=
  (∀ b ∈ S.info, isPrintable p b = true ∨ b = Config.subst) ∧
  ∀ cap, p.infoCap = some cap → S.info.length < cap

/-- The invariants of R32, with item 3 weakened as R93 says in the HANG mode. -/
def Session.Inv (p : Params) (S : Session) : Prop := S.stateInv p ∧ S.infoInv p

/-- The shape of an event of this block (R160, R163, R165). -/
def Event.sound (p : Params) : Event → Prop
  | .informationText t => t ≠ [] ∧ ∀ b ∈ t, isPrintable p b = true ∨ b = Config.subst
  | .connectStateChange => False
  | .dataReceived _ d => d.length = 2
  | .messageDecoded _ => True
  | .ack _ => True
  | .error (.resp _) => True
  | .error (.decode cause) => cause ≠ .unexpectedResponseCode
  | .interrupt _ => True

/-- What the payload window of a pending event shows (20_memory.md R51): the text, the two data bytes, the
raw MESSAGE payload whose parse the event reports, or nothing. -/
def PendingEvent.windowInv (p : Params) (x : PendingEvent) : Prop :=
  match x.event with
  | .informationText t => x.window = t
  | .dataReceived _ d => x.window = d
  | .messageDecoded m => msgParse p.registry x.window = .ok m
  | .error (.decode cause) => msgParse p.registry x.window = .err cause
  | .connectStateChange => x.window = []
  | .ack _ => x.window = []
  | .error (.resp _) => x.window = []
  | .interrupt _ => x.window = []

/-- What the signal-level slots hold (R26, R27, R51): a pending event is sound and its window its own, an outstanding request
carries a payload that fits the buffer, at most one of the two is there, at most two output bytes are
held. -/
def State.slotsInv (s : State) : Prop :=
  (∀ e, s.evPending = some e → e.event.sound s.par ∧ e.windowInv s.par) ∧
  (∀ raw, s.mpPending = some raw → raw.length ≤ Config.bufCap) ∧
  (s.evPending = none ∨ s.mpPending = none) ∧
  s.encPending.length ≤ 2

/-- The invariant of the whole state. -/
def State.Inv (s : State) : Prop :=
  s.par.wf ∧ s.session.Inv s.par ∧ (∀ e ∈ s.ev, e.sound s.par) ∧ s.slotsInv

/-- `k` steps of the machine, stopping at a fault or a refusal. -/
def runSteps : Nat → State → Host.Outcome State Fault Refusal
  | 0, s => .next s
  | k + 1, s =>
    match step s with
    | .next t => runSteps k t
    | .fault f => .fault f
    | .refused r => .refused r

/-- A run of `k` steps without a fault or a refusal. -/
def State.SafeFor (s : State) (k : Nat) : Prop := ∃ t, runSteps k s = .next t

end Sys2Proof.Machine
end

