-- ==== Sys2Proof/Certificates/Slice0/Obligations.lean ====
section
/-! DEFINITION. The statements for the provers, in the order of the spec's files. -/

open Sys2Proof Sys2Proof.Machine

/-! Encodings (30_encoding.md, 42_encoder.md). -/

/-- Words written out from the response-code map decode to their rows (R62, R60). The outbound clause reads
the ENCODE word with decodeOutbound, the model's own reader: the block has no such unit (R121, log 22). -/
def Obligations.TableWordsDecodeToTheirRows : Prop :=
  decode [0xA0, 0x01, 0x02] = .frame (.version 0x01 0x02) [] ∧
  decode [0xA1, 0x07, 0x55] = .frame (.ack 0x07) [0x55] ∧
  decode [0xA2, 0xA5, 0xEF] = .frame (.data 0xA5 0xEF) [] ∧
  decode [0xA4, 0x01] = .frame (.interrupt 0x01) [] ∧
  decode [0xA5, 0x00, 0x02, 0x68, 0x69] = .frame (.message [0x68, 0x69]) [] ∧
  decode [0xEF, 0x02] = .frame (.error 0x02) [] ∧
  decode [0xA3, 0xA1] = .frame (.infotext 0xA3) [0xA1] ∧
  decodeOutbound 0x11 0x22 [0x11, 0x22, 0x22, 0x11, 0x22] = some (.encode [0x11, 0x22])

/-- The classifier: six codes, and NONE for the other 250 values (R63). -/
def Obligations.ClassifierSeparatesSixCodes : Prop :=
  ∀ b : Byte,
    (classify b = .version ↔ b = 0xA0) ∧ (classify b = .ack ↔ b = 0xA1) ∧
    (classify b = .data ↔ b = 0xA2) ∧ (classify b = .interrupt ↔ b = 0xA4) ∧
    (classify b = .message ↔ b = 0xA5) ∧ (classify b = .error ↔ b = 0xEF) ∧
    (classify b = .none ↔ b ∉ Config.responseCodes) ∧
    (isCode b = true ↔ classify b ≠ .none) ∧
    (classify b).code = if isCode b then b else 0x00

/-- Every well-formed inbound instruction, followed by any bytes, is read back with every operand. -/
def Obligations.DecodeInvertsEncode : Prop :=
  ∀ (m0 m1 : Byte) (i : Instr) (rest : List Byte), i.wf = true → i.inbound = true →
    decode (encode m0 m1 i ++ rest) = .frame i rest

/-- What the frame decoder reads is well-formed, inbound, and is exactly the bytes it took. -/
def Obligations.EncodeInvertsDecode : Prop :=
  ∀ (m0 m1 : Byte) (bs rest : List Byte) (i : Instr), decode bs = .frame i rest →
    i.wf = true ∧ i.inbound = true ∧ bs = encode m0 m1 i ++ rest

/-- No byte sequence is an illegal frame: each one begins with a frame or can be completed to one. -/
def Obligations.NoLeadingByteIsIllegal : Prop :=
  ∀ (b : Byte) (bs : List Byte), ∃ more i rest, decode (b :: bs ++ more) = .frame i rest

/-- One outbound frame with known bounds gives back its command, for every pair of markers (R125 item 3
states it for distinct markers; this is the model's reading of the format, log 22). -/
def Obligations.OutboundFrameDeterminesItsCommand : Prop :=
  ∀ (m0 m1 : Byte) (c : List Byte),
    decodeOutbound m0 m1 (encode m0 m1 (.encode c)) = some (.encode c)

/-! The step (40_decoder_step.md). -/

/-- A step takes one command or one byte, and none without either (R8, R11); a byte's step is DecStep. An
instruction whose bytes stand at the head of RX is run by as many steps as it has bytes, from any session,
and so is the one the frame decoder reads there. The order of the agents and the waiting step are the
model's (logs 15, 16); that an instruction's meaning is the run of its bytes is log 14. -/
def Obligations.StepRunsWhatItFetches : Prop :=
  (∀ (s : State) (c : List Byte) (cmd : List (List Byte)), s.cmd = c :: cmd →
    step s = exec (.encode c) { s with cmd := cmd }) ∧
  (∀ (s : State) (b : Byte) (rest : List Byte), s.cmd = [] → s.rx = b :: rest →
    s.session.inDomain = true →
    step s = .next { s with
      rx := rest
      session := (decStep s.par s.session b).1
      ev := s.ev ++ (decStep s.par s.session b).2 }) ∧
  (∀ s : State, s.cmd = [] → s.rx = [] → step s = .next s) ∧
  (∀ (s : State) (i : Instr) (rest : List Byte), i.wf = true → i.inbound = true → s.cmd = [] →
    s.rx = encode s.par.mark0 s.par.mark1 i ++ rest →
    runSteps (encode s.par.mark0 s.par.mark1 i).length s = exec i { s with rx := rest }) ∧
  ∀ (s : State) (i : Instr) (rest : List Byte), s.cmd = [] → decode s.rx = .frame i rest →
    runSteps (s.rx.length - rest.length) s = exec i { s with rx := rest }

/-- A table word that decodes is what the next step runs: with every byte of the frame but the last
received, that step is the instruction's meaning at the frame's start; for the ENCODE row it is the empty
command under the markers the word shows (the placement is the model's, log 21). -/
def Obligations.PlacedTableWordRunsNext : Prop :=
  ∀ (s : State) (nbits w : Nat) (i : Instr), decodeTableWord nbits w = some i →
    (i.inbound = true → step (s.withFetchWord nbits w) =
      exec i { s with session := s.session.atBoundary, cmd := [] }) ∧
    (i.inbound = false → step (s.withFetchWord nbits w) =
      exec i { s with par := { s.par with
        mark0 := (wordBytes nbits w).getD 0 0, mark1 := (wordBytes nbits w).getD 1 0 } })

/-- The decoder's transitions and their events; the encoder and the host's moves other than reset leave
the session (R89). -/
def Obligations.TransitionTable : Prop :=
  (∀ (p : Params) (S : Session) (b : Byte), S.Inv p →
    match S.state with
    | .idle =>
      (b = 0xA5 → (decStep p S b).1.state = .awaitingLength ∧ (decStep p S b).2 = preText S.info) ∧
      (b = 0xA2 ∨ b = 0xA0 → (decStep p S b).1.state = .awaitingData ∧
        (decStep p S b).1.explen = 2 ∧ (decStep p S b).2 = preText S.info) ∧
      (b = 0xA1 ∨ b = 0xEF ∨ b = 0xA4 →
        (decStep p S b).1.state = .awaitingInfoByte ∧ (decStep p S b).2 = preText S.info) ∧
      (b ∉ Config.responseCodes → (decStep p S b).1.state = .idle ∧
        (decStep p S b).2 = if p.infoCap = some (S.info.length + 1)
          then [.informationText (S.info ++ [filter p b])] else [])
    | .awaitingLength =>
      (S.buf = [] → (decStep p S b).1.state = .awaitingLength ∧ (decStep p S b).2 = []) ∧
      (∀ h, S.buf = [h] → be16 h b ≠ 0 →
        (decStep p S b).1.state = .awaitingData ∧ (decStep p S b).2 = []) ∧
      (∀ h, S.buf = [h] → be16 h b = 0 → p.zeroLenMode = .immediate →
        (decStep p S b).1.state = .idle ∧
        ((∃ m, msgParse p.registry [] = .ok m ∧ (decStep p S b).2 = [.messageDecoded m]) ∨
          ∃ c, msgParse p.registry [] = .err c ∧ (decStep p S b).2 = [.error (.decode c)])) ∧
      (∀ h, S.buf = [h] → be16 h b = 0 → p.zeroLenMode = .hang →
        (decStep p S b).1.state = .awaitingData ∧ (decStep p S b).1.explen = 0 ∧
        (decStep p S b).2 = [])
    | .awaitingData =>
      (S.explen ≠ 0 → S.buf.length + 1 < S.explen.toNat →
        (decStep p S b).1.state = .awaitingData ∧ (decStep p S b).2 = []) ∧
      (S.explen ≠ 0 → S.buf.length + 1 = S.explen.toNat →
        (decStep p S b).1.state = .idle ∧
        ((S.kind = .message ∧
            ((∃ m, msgParse p.registry (S.buf ++ [b]) = .ok m ∧
              (decStep p S b).2 = [.messageDecoded m]) ∨
            ∃ c, msgParse p.registry (S.buf ++ [b]) = .err c ∧
              (decStep p S b).2 = [.error (.decode c)])) ∨
          (S.kind = .data ∧ (decStep p S b).2 = [.dataReceived .data (S.buf ++ [b])]) ∨
          (S.kind = .version ∧ (decStep p S b).2 = [.dataReceived .version (S.buf ++ [b])]))) ∧
      (S.explen = 0 → (decStep p S b).1.state = .awaitingData ∧ (decStep p S b).2 = [])
    | .awaitingInfoByte =>
      (decStep p S b).1.state = .idle ∧
      ((S.kind = .ack ∧ (decStep p S b).2 = [.ack b]) ∨
        (S.kind = .error ∧ (decStep p S b).2 = [.error (.resp b)]) ∨
        (S.kind = .interrupt ∧ (decStep p S b).2 = [.interrupt b]))) ∧
  (∀ (c : List Byte) (s t : State), exec (.encode c) s = .next t → t.session = s.session) ∧
  (∀ (s : State) (m : HostMove), m ≠ .reset → (s.afterMove m).session = s.session)

/-- Every step returns at most one event (R90). -/
def Obligations.AtMostOneEventPerByte : Prop :=
  ∀ (p : Params) (S : Session) (b : Byte), (decStep p S b).2.length ≤ 1

/-- A frame in progress ends only by completing: it returns to Idle exactly on the byte that delivers
its event, and then the session is the reset session (R187, R35; that `explen` and `kind` are cleared
is the spec's decision D8, log 13). -/
def Obligations.FrameEndsOnlyByCompletion : Prop :=
  ∀ (p : Params) (S : Session) (b : Byte), S.Inv p → S.state ≠ .idle →
    ((decStep p S b).1.state = .idle ↔ (decStep p S b).2.length = 1) ∧
    ((decStep p S b).1.state = .idle → (decStep p S b).1 = Session.reset)

/-- The events and the final session do not depend on how the stream is cut into chunks, and an empty
chunk (the end of a chunk) flushes nothing (R58). -/
def Obligations.ChunkingIsInvisible : Prop :=
  (∀ (p : Params) (S : Session) (chunks : List (List Byte)),
    decRun p S chunks.flatten =
      chunks.foldl (fun r c => ((decRun p r.1 c).1, r.2 ++ (decRun p r.1 c).2)) (S, [])) ∧
  ∀ (p : Params) (S : Session), decRun p S [] = (S, [])

/-- In the HANG mode a zero-length MESSAGE absorbs every later byte without an event (R93: the mode is
the spec's alternative, D7, log 5). -/
def Obligations.HangAbsorbsEveryByte : Prop :=
  ∀ (p : Params) (S : Session) (w : List Byte),
    S.state = .awaitingData → S.explen = 0 → S.buf.length ≤ Config.bufCap →
    decRun p S w = ({ S with buf := (S.buf ++ w).take Config.bufCap }, [])

/-- Bytes inside a payload are data whatever their values: those of an instruction too (R72, R192). That exec
runs an inbound instruction outside Idle as its bytes is the model's (log 17). -/
def Obligations.InstructionBytesInsideAPayloadAreData : Prop :=
  ∀ (s : State) (i : Instr), i.wf = true → i.inbound = true → s.session.state = .awaitingData →
    (s.session.kind = .message ∨ s.session.kind = .data ∨ s.session.kind = .version) →
    s.session.buf.length + (encode s.par.mark0 s.par.mark1 i).length < s.session.explen.toNat →
    exec i s = .next { s with session := { s.session with
      buf := s.session.buf ++ encode s.par.mark0 s.par.mark1 i } }

/-! The instructions (41_frame_types.md, 42_encoder.md). -/

/-- A DATA or a VERSION frame in Idle: the pending text, then the two bytes with their kind, and the
session of reset; nothing else changes (R101, R102; that the event carries its kind is D11, that
`explen` and `kind` are cleared D8, log 13). -/
def Obligations.FixedTwoFramesDeliverTheirBytes : Prop :=
  ∀ (s : State) (d0 d1 : Byte), s.session.state = .idle →
    exec (.data d0 d1) s = .next { s with
      session := Session.reset
      ev := s.ev ++ preText s.session.info ++ [.dataReceived .data [d0, d1]] } ∧
    exec (.version d0 d1) s = .next { s with
      session := Session.reset
      ev := s.ev ++ preText s.session.info ++ [.dataReceived .version [d0, d1]] }

/-- An ACK, an ERROR or an INTERRUPT frame in Idle: the pending text, then the event of its kind with
the info byte; nothing else changes (R103, R104, R105; the constructor `Resp` is D10). -/
def Obligations.InfoByteFramesDeliverTheirByte : Prop :=
  ∀ (s : State) (b : Byte), s.session.state = .idle →
    exec (.ack b) s = .next { s with
      session := Session.reset, ev := s.ev ++ preText s.session.info ++ [.ack b] } ∧
    exec (.error b) s = .next { s with
      session := Session.reset, ev := s.ev ++ preText s.session.info ++ [.error (.resp b)] } ∧
    exec (.interrupt b) s = .next { s with
      session := Session.reset, ev := s.ev ++ preText s.session.info ++ [.interrupt b] }

/-- A MESSAGE frame in Idle, of length 1 to 65535, or of length 0 in the IMMEDIATE mode: the pending
text, then the codec's reply on exactly the payload; the session after a failed parse is the one after
a successful one (R100, R166; the IMMEDIATE reading is D7, log 5). -/
def Obligations.MessageFrameDeliversTheCodecsReply : Prop :=
  ∀ (s : State) (q : List Byte), s.session.state = .idle → q.length ≤ 65535 →
    (q = [] → s.par.zeroLenMode = .immediate) →
    exec (.message q) s = .next { s with
      session := Session.reset
      ev := s.ev ++ preText s.session.info ++
        [match msgParse s.par.registry q with
          | .ok m => .messageDecoded m
          | .err cause => .error (.decode cause)] }

/-- A MESSAGE frame of length 0 in the HANG mode never completes: its next state waits for payload
bytes with an expected length of 0 (R93, D7, log 5). -/
def Obligations.EmptyMessageHangsInHangMode : Prop :=
  ∀ s : State, s.session.state = .idle → s.par.zeroLenMode = .hang →
    exec (.message []) s = .next { s with
      session := { state := .awaitingData, buf := [], explen := 0, kind := .message, info := [] }
      ev := s.ev ++ preText s.session.info }

/-- An information byte in Idle: the filtered byte is appended; when a finite INFO_CAP is met the text
is delivered at once; nothing else changes (R87, R106; the capacity is D6, log 4). -/
def Obligations.InfotextAppendsTheFilteredByte : Prop :=
  ∀ (s : State) (b : Byte), s.session.state = .idle → b ∉ Config.responseCodes →
    exec (.infotext b) s = .next (
      if s.par.infoCap = some (s.session.info.length + 1) then
        { s with
          session := { s.session with info := [] }
          ev := s.ev ++ [.informationText (s.session.info ++ [filter s.par b])] }
      else { s with session := { s.session with info := s.session.info ++ [filter s.par b] } })

/-- The filter keeps the printable bytes and replaces every other one by 0x3F; with the default parameter
the printable bytes are 0x20 to 0x7E, and every predicate on bytes is the `IsPrintable` of some parameter
value (R67, R7; the default range is D4, log 3, the form of the parameter log 2). -/
def Obligations.FilterReplacesUnprintableBytes : Prop :=
  (∀ (p : Params) (b : Byte), filter p b = if isPrintable p b then b else 0x3F) ∧
  (∀ b : Byte, isPrintable Config.params b = true ↔ 0x20 ≤ b.toNat ∧ b.toNat ≤ 0x7E) ∧
  ∀ f : Byte → Bool, ∃ ranges, ∀ (p : Params) (b : Byte),
    p.printable = ranges → isPrintable p b = f b

/-- A run of information bytes is cut into pieces of exactly INFO_CAP bytes (none when it is unbounded);
the pieces and what stays in `info` are the whole filtered text in order (R106, D6). -/
def Obligations.TextRunsAreDeliveredWhole : Prop :=
  ∀ (p : Params) (S : Session) (w : List Byte), S.state = .idle → S.infoInv p → p.infoCap ≠ some 0 →
    (∀ b ∈ w, b ∉ Config.responseCodes) →
    ∃ texts : List (List Byte),
      (decRun p S w).2 = texts.map Event.informationText ∧
      texts.flatten ++ (decRun p S w).1.info = S.info ++ w.map (filter p) ∧
      (∀ t ∈ texts, p.infoCap = some t.length) ∧
      (decRun p S w).1 = { S with info := (decRun p S w).1.info } ∧
      (∀ cap, p.infoCap = some cap → (decRun p S w).1.info.length < cap)

/-- ENCODE: the preamble and the stuffed bytes go to TX as one run; no command is refused and nothing
else is written (R120, R122). -/
def Obligations.EncodeAppendsTheStuffedFrame : Prop :=
  ∀ (s : State) (c : List Byte),
    exec (.encode c) s = .next { s with
      tx := s.tx ++ ([s.par.mark0, s.par.mark1] ++
        (c.map fun b => if b = s.par.mark0 then [s.par.mark1, b] else [b]).flatten) }

/-- The output length of a command and its bounds (R124). -/
def Obligations.EncodedLength : Prop :=
  ∀ (s t : State) (c : List Byte), exec (.encode c) s = .next t →
    t.tx.length = s.tx.length + 2 + c.length + c.count s.par.mark0 ∧
    s.tx.length + 2 ≤ t.tx.length ∧ t.tx.length ≤ s.tx.length + 2 + 2 * c.length

/-- Two commands and one command give the same bytes in TX: the wire does not delimit frames (R125
item 1). -/
def Obligations.OutboundFramesCollide : Prop :=
  ∀ (s t u : State) (c1 c2 : List Byte), s.par.mark0 ≠ s.par.mark1 →
    exec (.encode (c1 ++ [s.par.mark1])) s = .next t → exec (.encode c2) t = .next u →
    exec (.encode (c1 ++ [s.par.mark0, s.par.mark1] ++ c2)) s = .next u

/-- Every well-formed instruction completes in every session inside the decoder's domain, and its frame:
an inbound instruction writes the session and appends events (at most one a byte, R90), ENCODE writes TX
(R55, R91). The model's own: that an inbound instruction outside Idle is its bytes (log 17), and the domain,
which is wider than the sessions of R32 for which R80 defines the step (log 18). -/
def Obligations.EveryInstructionCompletesWithinItsFrame : Prop :=
  ∀ (i : Instr) (s : State), i.wf = true → s.session.inDomain = true →
    (i.inbound = true → ∃ S es, es.length ≤ (encode s.par.mark0 s.par.mark1 i).length ∧
      exec i s = .next { s with session := S, ev := s.ev ++ es }) ∧
    (i.inbound = false → ∃ out, exec i s = .next { s with tx := s.tx ++ out })

/-- A term outside its format is refused by name, and an inbound instruction outside the decoder's
domain stops by name (logs 18, 19: both stops are the model's). -/
def Obligations.StopsAreNamed : Prop :=
  (∀ (i : Instr) (s : State), i.wf = false → exec i s = .refused .illFormed) ∧
  ∀ (i : Instr) (s : State), i.wf = true → i.inbound = true → s.session.inDomain = false →
    exec i s = .fault .sessionOutsideDomain

/-! Order and independence (20_memory.md). -/

/-- A decoder step and an encoder step commute (R55). That exec runs an inbound instruction outside Idle as its
bytes is the model's (log 17). -/
def Obligations.DecoderAndEncoderCommute : Prop :=
  ∀ (i : Instr) (c : List Byte) (s t u : State), i.inbound = true →
    exec i s = .next t → exec (.encode c) s = .next u →
    ∃ v, exec (.encode c) t = .next v ∧ exec i u = .next v

/-- The machine's steps, one for each waiting command and byte, are one run of the decoder over RX and the
encodings of the commands in submission order (R8, R92, R127). The domain is the model's (log 18), and so is
the order of the agents (log 15), which the result does not show. -/
def Obligations.StepsRefineTheByteDecoder : Prop :=
  ∀ s : State, s.session.inDomain = true →
    runSteps (s.cmd.length + s.rx.length) s = .next { s with
      rx := [], cmd := []
      session := (decRun s.par s.session s.rx).1
      ev := s.ev ++ (decRun s.par s.session s.rx).2
      tx := s.tx ++ (s.cmd.map fun c => encode s.par.mark0 s.par.mark1 (.encode c)).flatten }

/-- Parameters are static: no step, no host move and no clock edge changes one (R196). -/
def Obligations.ParametersAreStatic : Prop :=
  (∀ s t : State, step s = .next t → t.par = s.par) ∧
  (∀ (s : State) (m : HostMove), (s.afterMove m).par = s.par) ∧
  ∀ (e : EdgeIn) (s t : State), clockEdge e s = .next t → t.par = s.par

/-! Invariants (10_state.md R32, 60_exceptions.md R160). -/

/-- The invariant holds at reset. -/
def Obligations.ResetMeetsTheInvariant : Prop := State.reset.Inv

/-- Every byte keeps the session invariants, for both readings of a zero length (R32, R93). -/
def Obligations.ByteStepKeepsTheSessionInvariant : Prop :=
  ∀ (p : Params) (S : Session) (b : Byte), p.infoCap ≠ some 0 → S.Inv p → (decStep p S b).1.Inv p

/-- Every step keeps the state invariant, from every state that meets it; so does every host move. -/
def Obligations.StepKeepsTheInvariant : Prop :=
  (∀ s t : State, s.Inv → step s = .next t → t.Inv) ∧
  ∀ (s : State) (m : HostMove), s.Inv → (s.afterMove m).Inv

/-- Every clock edge of the signal-level binding keeps the state invariant. -/
def Obligations.ClockEdgeKeepsTheInvariant : Prop :=
  ∀ (e : EdgeIn) (s t : State), s.Inv → clockEdge e s = .next t → t.Inv

/-- No run from a state that meets the invariant faults or is refused, and no clock edge does: the
decoder has no fault state (R91, R167). -/
def Obligations.RunsNeverStop : Prop :=
  (∀ (s : State) (k : Nat), s.Inv → s.SafeFor k) ∧
  ∀ (e : EdgeIn) (s : State), s.Inv → ∃ t, clockEdge e s = .next t

/-! Events and errors (60_exceptions.md). -/

/-- `UnexpectedResponseCode` is never raised, by any run from any session; the byte without a class is
information text; the code 4 is kept for it (R165). -/
def Obligations.UnexpectedResponseCodeIsNeverRaised : Prop :=
  (∀ (p : Params) (S : Session) (w : List Byte),
    .error (.decode .unexpectedResponseCode) ∉ (decRun p S w).2) ∧
  (∀ (p : Params) (S : Session) (b : Byte), S.state = .idle → classify b = .none →
    (decStep p S b).1.info = S.info ++ [filter p b] ∧ (decStep p S b).2 = [] ∨
      (decStep p S b).1.info = [] ∧
        (decStep p S b).2 = [.informationText (S.info ++ [filter p b])]) ∧
  DecodeCause.unexpectedResponseCode.code = 4 ∧
  (∀ c : DecodeCause, c.code = 4 → c = .unexpectedResponseCode)

/-- A decode error is raised by the last byte of a MESSAGE frame and by no other byte (R164). -/
def Obligations.OnlyAMessagesLastByteRaisesAnError : Prop :=
  ∀ (p : Params) (S : Session) (b : Byte) (c : DecodeCause), S.Inv p →
    .error (.decode c) ∈ (decStep p S b).2 →
    S.kind = .message ∧ (decStep p S b).1 = Session.reset ∧
      ((S.state = .awaitingData ∧ S.buf.length + 1 = S.explen.toNat ∧
          msgParse p.registry (S.buf ++ [b]) = .err c) ∨
        (S.state = .awaitingLength ∧ p.zeroLenMode = .immediate ∧ S.buf = [0] ∧ b = 0 ∧
          msgParse p.registry [] = .err c))

/-! Reset (70_reset_and_hazards.md). -/

/-- The state after reset (R33, R185). All values but `state` are the spec's decisions (D8, D14, log 13)
or the model's (empty channels, log 20). -/
def Obligations.ResetStateHoldsTheReset : Prop :=
  State.reset.session = { state := .idle, buf := [], explen := 0, kind := .none, info := [] } ∧
  State.reset.evPending = none ∧ State.reset.mpPending = none ∧ State.reset.encPending = [] ∧
  State.reset.rx = [] ∧ State.reset.ev = [] ∧ State.reset.cmd = [] ∧ State.reset.tx = [] ∧
  State.reset.par = Config.params

/-- Reset from any state, by the host's move or by `rst` at a clock edge whatever the other inputs are:
a frame in progress, pending text, the pending event and the pending output go without an event;
delivered events, TX bytes and parameters stay (R185, R186, R50; D14, log 20). That at a reset edge nothing
changes hands, whatever ev_ready and tx_ready are, is the model's (log 25). -/
def Obligations.ResetDropsWhatIsPending : Prop :=
  (∀ s : State, s.afterMove .reset = { s with
    session := Session.reset, evPending := none, mpPending := none, encPending := [] }) ∧
  ∀ (e : EdgeIn) (s : State), e.rst = true → clockEdge e s = .next { s with
    session := Session.reset, evPending := none, mpPending := none, encPending := []
    free := s.free + 1 }

/-! The signal-level binding (20_memory.md R50 to R53; the binding is the spec's decision D2, D23). -/

/-- While an event is pending and not accepted, it is held unchanged and no byte is consumed; an
accepted event is delivered once (R51, R195). -/
def Obligations.PendingEventHoldsBackBytes : Prop :=
  ∀ (e : EdgeIn) (s : State) (x : PendingEvent), s.evPending = some x → e.rst = false →
    s.rxReady = false ∧
    ∃ t, clockEdge e s = .next t ∧ t.session = s.session ∧ t.mpPending = s.mpPending ∧
      (e.evReady = false → t.evPending = some x ∧ t.ev = s.ev) ∧
      (e.evReady = true → t.evPending = none ∧ t.ev = s.ev ++ [x.event])

/-- With no event pending: a valid byte is consumed, by exactly one DecStep, only when no MP request is
outstanding; its event is pending from that edge with its own window, or, for a MESSAGE, the whole payload
goes to the codec, whose answer makes the event pending with that payload as window (R51, R45; the port of
the answer and its edge are the model's, log 23). -/
def Obligations.EdgeTakesOneByteWhenReady : Prop :=
  ∀ (e : EdgeIn) (s : State), s.Inv → e.rst = false → s.evPending = none →
    ∃ t, clockEdge e s = .next t ∧ t.ev = s.ev ∧
      (∀ raw, s.mpPending = some raw → t.session = s.session ∧
        (e.mpAnswer = false → t.mpPending = some raw ∧ t.evPending = none) ∧
        (e.mpAnswer = true → t.mpPending = none ∧
          (∀ m, msgParse s.par.registry raw = .ok m →
            t.evPending = some { event := .messageDecoded m, window := raw }) ∧
          ∀ c, msgParse s.par.registry raw = .err c →
            t.evPending = some { event := .error (.decode c), window := raw })) ∧
      (s.mpPending = none → e.rxValid = false →
        t.session = s.session ∧ t.mpPending = none ∧ t.evPending = none) ∧
      (s.mpPending = none → e.rxValid = true →
        t.session = (decStep s.par s.session e.rxData).1 ∧
        match (decStep s.par s.session e.rxData).2 with
        | [] => t.mpPending = none ∧ t.evPending = none
        | .informationText w :: _ =>
          t.mpPending = none ∧ t.evPending = some { event := .informationText w, window := w }
        | .dataReceived k d :: _ =>
          t.mpPending = none ∧ t.evPending = some { event := .dataReceived k d, window := d }
        | .messageDecoded _ :: _ | .error (.decode _) :: _ =>
          t.evPending = none ∧ t.mpPending = some (
            if s.session.state = .awaitingData then s.session.buf ++ [e.rxData] else [])
        | x :: _ => t.mpPending = none ∧ t.evPending = some { event := x, window := [] })

/-- The ports show the pending event: its tag (R161), `ev_code`, `ev_src` and window as R51 gives them for
each event, with the cause codes of R164; the length and every byte of the window. The two events the block
never emits are never shown (R163, R165). With no event pending, valid, code and source are 0 (R51). Ports
outside the window are free values, of which nothing is said (log 24). -/
def Obligations.PortsShowThePendingEvent : Prop :=
  (∀ (s : State) (x : PendingEvent) (e : EdgeIn), s.Inv → s.evPending = some x →
    let o := s.outputs e
    let ports := (o.evKind, o.evCode, o.evSrc)
    o.evValid = true ∧ o.rxReady = false ∧
    (x.window.length < 65536 → o.evLen.toNat = x.window.length ∧
      ∀ h : e.evRaddr.toNat < x.window.length, o.evRdata = x.window[e.evRaddr.toNat]) ∧
    match x.event with
    | .informationText t => ports = (0, 0x00, false) ∧ x.window = t
    | .connectStateChange => False
    | .dataReceived .data d => ports = (2, 0xA2, false) ∧ x.window = d ∧ d.length = 2
    | .dataReceived .version d => ports = (2, 0xA0, false) ∧ x.window = d ∧ d.length = 2
    | .messageDecoded m => ports = (3, 0x00, false) ∧ msgParse s.par.registry x.window = .ok m
    | .ack b => ports = (4, b, false) ∧ x.window = []
    | .error (.resp b) => ports = (5, b, false) ∧ x.window = []
    | .error (.decode (.truncatedStream expected available)) => ports = (5, 1, true) ∧
      msgParse s.par.registry x.window = .err (.truncatedStream expected available)
    | .error (.decode (.unknownRecordType name)) => ports = (5, 2, true) ∧
      msgParse s.par.registry x.window = .err (.unknownRecordType name)
    | .error (.decode .malformedRecordPayload) => ports = (5, 3, true) ∧
      msgParse s.par.registry x.window = .err .malformedRecordPayload
    | .error (.decode .unexpectedResponseCode) => False
    | .interrupt b => ports = (6, b, false) ∧ x.window = []) ∧
  ∀ (s : State) (e : EdgeIn), s.evPending = none →
    (s.outputs e).evValid = false ∧ (s.outputs e).evCode = 0 ∧ (s.outputs e).evSrc = false ∧
    (s.outputs e).rxReady = s.mpPending.isNone

/-- A stream pushed byte by byte through the ports, each byte followed by the codec's answer and the
host's acceptance, leaves the session and delivers the events of the byte-at-a-time decoder (R51, R12;
the answer's edge is the model's, log 23, and so is the domain, log 18). -/
def Obligations.PortsRefineTheByteDecoder : Prop :=
  ∀ (s : State) (w : List Byte), s.session.inDomain = true → s.evPending = none →
    s.mpPending = none →
    clockRun (w.flatMap fun b =>
      [{ EdgeIn.quiet with rxValid := true, rxData := b }, { EdgeIn.quiet with mpAnswer := true },
       { EdgeIn.quiet with evReady := true }]) s = .next { s with
      session := (decRun s.par s.session w).1
      ev := s.ev ++ (decRun s.par s.session w).2
      free := s.free + 3 * w.length }

/-- A start-of-frame beat and a data beat for each command byte, with the sink taking the held bytes
after each beat, put ENCODE of the command in TX (R52, R123). -/
def Obligations.BeatsEncodeTheCommand : Prop :=
  ∀ (s : State) (c : List Byte), s.encPending = [] →
    clockRun ((true, 0) :: c.map (fun b => (false, b)) |>.flatMap fun beat : Bool × Byte =>
      [{ EdgeIn.quiet with cmdValid := true, cmdSof := beat.1, cmdData := beat.2 },
       { EdgeIn.quiet with txReady := true }, { EdgeIn.quiet with txReady := true }]) s =
    .next { s with
      tx := s.tx ++ encode s.par.mark0 s.par.mark1 (.encode c)
      free := s.free + 3 * (c.length + 1) }

/-- The block stalls only on the host: once the codec answers, the event is accepted and the sink takes
the held bytes, both directions are ready again (R53). That this takes two edges is the model's count: it
rests on the port of the codec's answer and on the edge at which its event is pending (log 23). -/
def Obligations.BlockStallsOnlyOnTheHost : Prop :=
  ∀ s t : State, s.Inv →
    clockRun (List.replicate 2
      { EdgeIn.quiet with mpAnswer := true, evReady := true, txReady := true }) s = .next t →
    t.rxReady = true ∧ t.cmdReady = true ∧ t.session = s.session

/-! The message codec (43_message_codec_port.md). -/

/-- The header byte: the place of each flag, and both round trips (R136). -/
def Obligations.HeaderByteRoundTrips : Prop :=
  (∀ b : Byte, (Header.fromByte b).toByte = b ∧
    Header.fromByte (Header.fromByte b).toByte = Header.fromByte b) ∧
  (∀ h : Header, Header.fromByte h.toByte = h) ∧
  (∀ h : Header, h.toByte.toNat =
    128 * h.messageBegin.toNat + 64 * h.messageEnd.toNat + 32 * h.chunked.toNat +
      16 * h.shortRecord.toNat + 8 * h.idLengthPresent.toNat + h.tnf.toNat)

/-- `ParseMessage`: an empty buffer is the empty message; else one record, then the rest of the buffer
from where it ends; a failure is the whole answer; a partial record header is truncated; a record takes
at least 4 bytes (R139). -/
def Obligations.MessageIsParsedRecordByRecord : Prop :=
  ∀ reg : List (List Byte × Variant),
    msgParse reg [] = .ok [] ∧
    (∀ bs : List Byte, bs ≠ [] → msgParse reg bs =
      match parseRecord reg bs with
      | .err cause => .err cause
      | .ok (r, n) =>
        match msgParse reg (bs.drop n) with
        | .err cause => .err cause
        | .ok m => .ok (r :: m)) ∧
    (∀ bs : List Byte, bs.length < 4 → ∃ expected available,
      parseRecord reg bs = .err (.truncatedStream expected available)) ∧
    ((∀ e ∈ reg, e.1 ≠ []) → ∀ (bs : List Byte) (r : Record) (n : Nat),
      parseRecord reg bs = .ok (r, n) → 4 ≤ n)

/-- A parsed record lies inside the buffer: its name and payload are slices of it and it takes no byte
beyond the end; in both forms a length field, a type name or a payload that runs past the end is truncated
(R138, R151; the counts of all checks but the payload's are the spec's own, D20, log 10). -/
def Obligations.RecordIsNeverReadOutOfBounds : Prop :=
  (∀ (reg : List (List Byte × Variant)) (bs : List Byte) (r : Record) (n : Nat),
    parseRecord reg bs = .ok (r, n) →
    n ≤ bs.length ∧ ∃ h, (h = 3 ∨ h = 6) ∧ n = h + r.type.length + r.payload.length ∧
      r.type ++ r.payload = (bs.drop h).take (r.type.length + r.payload.length)) ∧
  (∀ (reg : List (List Byte × Variant)) (hdr tl l0 : Byte) (name tail : List Byte),
    (Header.fromByte hdr).shortRecord = true → name.length = tl.toNat → tail.length < l0.toNat →
    1 ≤ name.length + tail.length →
    parseRecord reg (hdr :: tl :: l0 :: (name ++ tail)) =
      .err (.truncatedStream l0.toNat tail.length)) ∧
  (∀ (reg : List (List Byte × Variant)) (hdr tl l0 l1 l2 l3 : Byte) (name tail : List Byte),
    (Header.fromByte hdr).shortRecord = false → name.length = tl.toNat →
    tail.length < ((l0.toNat * 256 + l1.toNat) * 256 + l2.toNat) * 256 + l3.toNat →
    parseRecord reg (hdr :: tl :: l0 :: l1 :: l2 :: l3 :: (name ++ tail)) =
      .err (.truncatedStream (((l0.toNat * 256 + l1.toNat) * 256 + l2.toNat) * 256 + l3.toNat)
        tail.length)) ∧
  (∀ (reg : List (List Byte × Variant)) (hdr : Byte) (rest : List Byte),
    (Header.fromByte hdr).shortRecord = false → 3 ≤ rest.length → rest.length < 5 →
    parseRecord reg (hdr :: rest) = .err (.truncatedStream 6 (rest.length + 1))) ∧
  (∀ (reg : List (List Byte × Variant)) (hdr tl l0 : Byte) (rest : List Byte),
    (Header.fromByte hdr).shortRecord = true → 1 ≤ rest.length → rest.length < tl.toNat →
    parseRecord reg (hdr :: tl :: l0 :: rest) = .err (.truncatedStream tl.toNat rest.length)) ∧
  ∀ (reg : List (List Byte × Variant)) (hdr tl l0 l1 l2 l3 : Byte) (rest : List Byte),
    (Header.fromByte hdr).shortRecord = false → rest.length < tl.toNat →
    parseRecord reg (hdr :: tl :: l0 :: l1 :: l2 :: l3 :: rest) =
      .err (.truncatedStream tl.toNat rest.length)

/-- The parser looks at no header bit but the short-record flag (R149). -/
def Obligations.OtherHeaderBitsAreIgnored : Prop :=
  ∀ (reg : List (List Byte × Variant)) (a b : Byte) (rest : List Byte),
    (Header.fromByte a).shortRecord = (Header.fromByte b).shortRecord →
    parseRecord reg (a :: rest) = parseRecord reg (b :: rest)

/-- Parsing a serialized message gives back its records, whatever the message: each record is what its
registered variant builds from its payload (R150 item 4, R145). -/
def Obligations.ParseInvertsSerialize : Prop :=
  ∀ (reg : List (List Byte × Variant)) (m : List Record),
    (∀ e ∈ reg, e.1 ≠ []) →
    (∀ r ∈ m, r.type.length ≤ 255 ∧ r.payload.length < 4294967296 ∧
      buildRecord reg r.type r.payload = .ok r) →
    msgParse reg (serialize m) = .ok m

/-- A payload of 1 to 3 bytes is no record (R150 item 3; the counts are the spec's own, D20, log 10). -/
def Obligations.ShortMessagePayloadIsTruncated : Prop :=
  ∀ (reg : List (List Byte × Variant)) (bs : List Byte), 1 ≤ bs.length → bs.length ≤ 3 →
    msgParse reg bs = .err (.truncatedStream 4 bs.length)

/-- The variants: a Text payload never fails and under 3 bytes degrades to "en" and no text; a URI
payload fails only when it is empty, an index over 35 is index 0; Android copies its payload and is the
only variant whose TNF is not 1 (R141, R142, R144; the fixed offsets of Text are D24, log 11). -/
def Obligations.VariantsDecodeTheirPayloads : Prop :=
  (∀ q : List Byte, q.length < 3 → variantDecode .text q = .ok (.text [0x65, 0x6E] [])) ∧
  (∀ (n l0 l1 : Byte) (text : List Byte),
    variantDecode .text (n :: l0 :: l1 :: text) = .ok (.text [l0, l1] text)) ∧
  variantDecode .uri [] = .err .malformedRecordPayload ∧
  (∀ (i : Byte) (rest : List Byte), i.toNat ≤ 35 → ∃ pre, uriTable[i.toNat]? = some pre ∧
    variantDecode .uri (i :: rest) = .ok (.uri i.toNat rest (pre ++ rest))) ∧
  (∀ (i : Byte) (rest : List Byte), 35 < i.toNat →
    variantDecode .uri (i :: rest) = .ok (.uri 0 rest rest)) ∧
  (∀ q : List Byte, variantDecode .android q = .ok (.android q)) ∧
  variantTnf .android = 4 ∧ variantTnf .text = 1 ∧ variantTnf .uri = 1

/-- The Android variant: both directions copy the bytes, its TNF is 4 whatever the payload, it is the
only variant with another TNF than 1, and it never fails (R144). -/
def Obligations.AndroidRecordIsATransparentCopy : Prop :=
  (∀ (reg : List (List Byte × Variant)) (name q : List Byte),
    registryLookup reg name = some .android →
    buildRecord reg name (androidEncodePayload q) =
      .ok { type := name, tnf := 4, payload := q, fields := .android q }) ∧
  (∀ v : Variant, variantTnf v ≠ 1 ↔ v = .android)

/-- A URI's encoding takes the first table entry, from index 1, that is a prefix of it, else index 0, and
decodes to the same URI, verbatim with index 0 and else up to the case of the abbreviated prefix (R151,
R142, C4; the case folding is the model's, log 28). -/
def Obligations.UriEncodingRoundTrips : Prop :=
  ∀ uri : List Byte, ∃ k rem out,
    uriDecode (uriEncodePayload uri) = .ok (.uri k rem out) ∧
    out.map lowerByte = uri.map lowerByte ∧
    (k = 0 → out = uri) ∧
    (k ≠ 0 → ∃ pre, uriTable[k]? = some pre ∧ isPrefixNoCase pre uri = true) ∧
    (∀ j pre, 1 ≤ j → (k = 0 ∨ j < k) → uriTable[j]? = some pre → isPrefixNoCase pre uri = false)
end

