-- ==== Sys2Proof/Laws/Codec.lean ====
section
/-! SUPPORT. What the codec's shared operations can do, said once. -/

namespace Sys2Proof.Machine

variable {reg : List (List Byte × Variant)}

/-- Everything a successful `buildRecord` says. -/
theorem buildRecord_ok {name payload : List Byte} {r : Record}
    (h : buildRecord reg name payload = .ok r) :
    ∃ v f, registryLookup reg name = some v ∧ variantDecode v payload = .ok f ∧
      r = { type := name, tnf := variantTnf v, payload := payload, fields := f } := by
  unfold buildRecord at h
  split at h
  · cases h
  · rename_i v hv
    split at h
    · cases h
    · rename_i f hf
      exact ⟨v, f, hv, hf, by cases h; rfl⟩

/-- Everything a successful `parseBody` says. -/
theorem parseBody_ok {typeLen recLen headLen n : Nat} {body : List Byte} {r : Record}
    (h : parseBody reg typeLen recLen body headLen = .ok (r, n)) :
    typeLen ≤ body.length ∧ recLen ≤ (body.drop typeLen).length ∧ n = headLen + typeLen + recLen ∧
      buildRecord reg (body.take typeLen) ((body.drop typeLen).take recLen) = .ok r := by
  unfold parseBody at h
  split at h
  · cases h
  · rename_i h1
    simp only at h
    split at h
    · cases h
    · rename_i h2
      split at h
      · cases h
      · rename_i r' hr
        cases h
        exact ⟨by omega, by omega, rfl, hr⟩

/-- Everything a successful `parseRecord` says: the short and the long form. -/
theorem parseRecord_ok {bs : List Byte} {r : Record} {n : Nat}
    (h : parseRecord reg bs = .ok (r, n)) :
    (∃ hdr tl l0 l1 rest, bs = hdr :: tl :: l0 :: l1 :: rest ∧
        (Header.fromByte hdr).shortRecord = true ∧
        parseBody reg tl.toNat l0.toNat (l1 :: rest) 3 = .ok (r, n)) ∨
      (∃ hdr tl l0 l1 l2 l3 body, bs = hdr :: tl :: l0 :: l1 :: l2 :: l3 :: body ∧
        (Header.fromByte hdr).shortRecord = false ∧
        parseBody reg tl.toNat (be32 l0 l1 l2 l3) body 6 = .ok (r, n)) := by
  unfold parseRecord at h
  split at h
  · rename_i hdr tl l0 l1 rest
    split at h
    · rename_i hs
      exact .inl ⟨hdr, tl, l0, l1, rest, rfl, hs, h⟩
    · rename_i hs
      split at h
      · rename_i l2 l3 body
        exact .inr ⟨hdr, tl, l0, l1, l2, l3, body, rfl, by simpa using hs, h⟩
      · cases h
  · cases h

/-- A record takes at least one byte, so the loop of `ParseMessage` moves on. -/
theorem parseRecord_pos {bs : List Byte} {r : Record} {n : Nat}
    (h : parseRecord reg bs = .ok (r, n)) : 0 < n := by
  rcases parseRecord_ok h with ⟨_, _, _, _, _, _, _, hb⟩ | ⟨_, _, _, _, _, _, _, _, _, hb⟩ <;>
    (have := (parseBody_ok hb).2.2.1; omega)

/-- Fuel beyond the buffer's length changes nothing (log 30). -/
theorem parseLoop_fuel (f g : Nat) (bs : List Byte) (hf : bs.length ≤ f) (hg : bs.length ≤ g) :
    parseLoop reg f bs = parseLoop reg g bs := by
  induction f generalizing g bs with
  | zero =>
    have : bs = [] := List.length_eq_zero_iff.mp (by omega)
    subst this
    cases g <;> rfl
  | succ f ih =>
    cases bs with
    | nil => cases g <;> rfl
    | cons b rest =>
      obtain ⟨g, rfl⟩ : ∃ g', g = g' + 1 := ⟨g - 1, by simp at hg; omega⟩
      unfold parseLoop
      cases hr : parseRecord reg (b :: rest) with
      | err c => rfl
      | ok rn =>
        obtain ⟨r, n⟩ := rn
        have hn := parseRecord_pos hr
        have hl : ((b :: rest).drop n).length ≤ rest.length := by
          simp only [List.length_drop, List.length_cons]; omega
        simp only [List.length_cons] at hf hg
        have he := ih g ((b :: rest).drop n) (by omega) (by omega)
        simp only [he]

end Sys2Proof.Machine
end

