-- ==== Sys2Proof/Laws/Decode.lean ====
section
/-! SUPPORT. The byte-order helpers as arithmetic, and the stuffing pass byte by byte. -/

namespace Sys2Proof

/-- `be16(h, l) = h * 256 + l` (00_scope.md R9). -/
theorem be16_toNat (h l : Byte) : (be16 h l).toNat = h.toNat * 256 + l.toNat := by
  rw [be16, BitVec.toNat_append, ← Nat.shiftLeft_add_eq_or_of_lt l.isLt, Nat.shiftLeft_eq]

/-- The two length bytes assemble to the length (30_encoding.md R64). -/
theorem be16_lengthBytes (n : Nat) (h : n ≤ 65535) :
    (be16 (lengthBytes n).1 (lengthBytes n).2).toNat = n := by
  simp only [be16_toNat, lengthBytes, BitVec.toNat_ofNat]
  omega

/-- The length that two bytes assemble to is written with the same two bytes. -/
theorem lengthBytes_be16 (h l : Byte) : lengthBytes (be16 h l).toNat = (h, l) := by
  have h1 := h.isLt
  have h2 := l.isLt
  rw [be16_toNat]
  ext1 <;> (apply BitVec.eq_of_toNat_eq; simp [lengthBytes]; omega)

@[simp] theorem stuffAll_nil (m0 m1 : Byte) : stuffAll m0 m1 [] = [] := rfl

@[simp] theorem stuffAll_cons (m0 m1 b : Byte) (c : List Byte) :
    stuffAll m0 m1 (b :: c) = stuff m0 m1 b ++ stuffAll m0 m1 c := rfl

theorem stuff_of_eq (m0 m1 : Byte) : stuff m0 m1 m0 = [m1, m0] := if_pos rfl

theorem stuff_of_ne {m0 b : Byte} (m1 : Byte) (h : b ≠ m0) : stuff m0 m1 b = [b] := if_neg h

end Sys2Proof
end

