-- ==== Sys2Proof/Laws/State.lean ====
section
/-! SUPPORT. One lemma per field and update of the session and of the state. -/

namespace Sys2Proof.Machine

section session
variable (S : Session)

@[simp] theorem toIdle_state : S.toIdle.state = .idle := rfl
@[simp] theorem toIdle_buf : S.toIdle.buf = [] := rfl
@[simp] theorem toIdle_explen : S.toIdle.explen = 0 := rfl
@[simp] theorem toIdle_kind : S.toIdle.kind = .none := rfl
@[simp] theorem toIdle_info : S.toIdle.info = S.info := rfl

@[simp] theorem reset_state : Session.reset.state = .idle := rfl
@[simp] theorem reset_buf : Session.reset.buf = [] := rfl
@[simp] theorem reset_explen : Session.reset.explen = 0 := rfl
@[simp] theorem reset_kind : Session.reset.kind = .none := rfl
@[simp] theorem reset_info : Session.reset.info = [] := rfl

/-- A return to Idle with no text pending is the reset session (10_state.md R35). -/
theorem toIdle_eq_reset (h : S.info = []) : S.toIdle = Session.reset := by
  simp [Session.toIdle, Session.reset, h]

end session

section state
variable (s : State) (b : Byte)

@[simp] theorem applyReset_par : s.applyReset.par = s.par := rfl
@[simp] theorem applyReset_session : s.applyReset.session = Session.reset := rfl
@[simp] theorem applyReset_rx : s.applyReset.rx = s.rx := rfl
@[simp] theorem applyReset_ev : s.applyReset.ev = s.ev := rfl
@[simp] theorem applyReset_cmd : s.applyReset.cmd = s.cmd := rfl
@[simp] theorem applyReset_tx : s.applyReset.tx = s.tx := rfl
@[simp] theorem applyReset_evPending : s.applyReset.evPending = none := rfl
@[simp] theorem applyReset_mpPending : s.applyReset.mpPending = none := rfl
@[simp] theorem applyReset_encPending : s.applyReset.encPending = [] := rfl
@[simp] theorem applyReset_free : s.applyReset.free = s.free := rfl

@[simp] theorem encStart_par : (encStart s).par = s.par := rfl
@[simp] theorem encStart_session : (encStart s).session = s.session := rfl
@[simp] theorem encStart_rx : (encStart s).rx = s.rx := rfl
@[simp] theorem encStart_ev : (encStart s).ev = s.ev := rfl
@[simp] theorem encStart_cmd : (encStart s).cmd = s.cmd := rfl
@[simp] theorem encStart_tx : (encStart s).tx = s.tx ++ [s.par.mark0, s.par.mark1] := rfl
@[simp] theorem encStart_evPending : (encStart s).evPending = s.evPending := rfl
@[simp] theorem encStart_mpPending : (encStart s).mpPending = s.mpPending := rfl
@[simp] theorem encStart_encPending : (encStart s).encPending = s.encPending := rfl
@[simp] theorem encStart_free : (encStart s).free = s.free := rfl

@[simp] theorem encByte_par : (encByte s b).par = s.par := rfl
@[simp] theorem encByte_session : (encByte s b).session = s.session := rfl
@[simp] theorem encByte_rx : (encByte s b).rx = s.rx := rfl
@[simp] theorem encByte_ev : (encByte s b).ev = s.ev := rfl
@[simp] theorem encByte_cmd : (encByte s b).cmd = s.cmd := rfl
@[simp] theorem encByte_tx : (encByte s b).tx = s.tx ++ stuff s.par.mark0 s.par.mark1 b := rfl
@[simp] theorem encByte_evPending : (encByte s b).evPending = s.evPending := rfl
@[simp] theorem encByte_mpPending : (encByte s b).mpPending = s.mpPending := rfl
@[simp] theorem encByte_encPending : (encByte s b).encPending = s.encPending := rfl
@[simp] theorem encByte_free : (encByte s b).free = s.free := rfl

end state

end Sys2Proof.Machine
end

