-- ==== Sys2Proof/Laws/Decoder.lean ====
section
/-! SUPPORT. What each shared operation of the decoder can do, said once. -/

namespace Sys2Proof.Machine

variable (p : Params) (S : Session) (b : Byte)

theorem flushInfo_eq : flushInfo S = ({ S with info := [] }, preText S.info) := by
  obtain ⟨st, buf, ex, k, info⟩ := S
  cases info <;> simp [flushInfo, preText]

theorem accumulateInfo_eq :
    accumulateInfo p S b =
      if infoFull p (S.info ++ [filter p b]) then
        ({ S with info := [] }, [.informationText (S.info ++ [filter p b])])
      else ({ S with info := S.info ++ [filter p b] }, []) := by
  simp [accumulateInfo, flushInfo_eq, preText]

theorem raiseDecode_eq (c : DecodeCause) : raiseDecode c S = (S.toIdle, [.error (.decode c)]) := rfl

/-- A MESSAGE frame's completion is the codec's reply and a return to Idle, whatever the reply. -/
theorem completeMessage_eq :
    completeMessage p S = (S.toIdle, [codecReply p S.buf]) := by
  unfold completeMessage codecReply
  cases msgParse p.registry S.buf <;> rfl

theorem complete_message (h : S.kind = .message) :
    complete p S = (S.toIdle, [codecReply p S.buf]) := by
  simp [complete, h, completeMessage_eq]

theorem complete_data (h : S.kind = .data) :
    complete p S = (S.toIdle, [.dataReceived .data S.buf]) := by simp [complete, h]

theorem complete_version (h : S.kind = .version) :
    complete p S = (S.toIdle, [.dataReceived .version S.buf]) := by simp [complete, h]

/-- Whatever its kind, a completion returns to Idle. -/
theorem complete_session : (complete p S).1 = S.toIdle := by
  unfold complete
  split <;> simp [completeMessage_eq]

theorem stepIdle_code (h : isCode b = true) :
    stepIdle p S b = (openFrame b { S with info := [] }, preText S.info) := by
  simp [stepIdle, h, flushInfo_eq]

theorem stepIdle_text (h : isCode b = false) : stepIdle p S b = accumulateInfo p S b := by
  simp [stepIdle, h]

theorem stepInfoByte_eq : stepInfoByte S b = (S.toIdle, infoByteEvent S.kind b) := rfl

/-- The first length byte (R83). -/
theorem stepLength_first (h : S.buf = []) : stepLength p S b = ({ S with buf := [b] }, []) := by
  simp [stepLength, h]

/-- The second length byte (R83): the payload state, or at once the completion of an empty payload. -/
theorem stepLength_second {hi : Byte} {t : List Byte} (h : S.buf = hi :: t) :
    stepLength p S b =
      if be16 hi b = 0 ∧ p.zeroLenMode = .immediate then
        complete p { S with explen := be16 hi b, buf := [], state := .awaitingData }
      else ({ S with explen := be16 hi b, buf := [], state := .awaitingData }, []) := by
  simp only [stepLength, h]
  cases hm : p.zeroLenMode <;> by_cases hz : be16 hi b = 0 <;> simp [hz]

/-- A payload byte (R84): the last one completes the frame. -/
theorem stepData_nonzero (h : S.explen ≠ 0) :
    stepData p S b =
      if S.buf.length + 1 = S.explen.toNat then complete p { S with buf := S.buf ++ [b] }
      else ({ S with buf := S.buf ++ [b] }, []) := by
  rw [stepData, if_neg h]
  simp

theorem stepData_zero (h : S.explen = 0) : stepData p S b = stepHang S b := by
  simp [stepData, h]

/-- The absorbing state writes nothing but the buffer (R93). -/
theorem stepHang_eq :
    stepHang S b =
      ({ S with buf := if S.buf.length < Config.bufCap then S.buf ++ [b] else S.buf }, []) := by
  unfold stepHang
  split <;> rfl

theorem decStep_idle (h : S.state = .idle) : decStep p S b = stepIdle p S b := by
  simp [decStep, h]

theorem decStep_length (h : S.state = .awaitingLength) : decStep p S b = stepLength p S b := by
  simp [decStep, h]

theorem decStep_data (h : S.state = .awaitingData) : decStep p S b = stepData p S b := by
  simp [decStep, h]

theorem decStep_infoByte (h : S.state = .awaitingInfoByte) :
    decStep p S b = stepInfoByte S b := by
  simp [decStep, h]

@[simp] theorem decRun_nil : decRun p S [] = (S, []) := rfl

@[simp] theorem decRun_cons (w : List Byte) :
    decRun p S (b :: w) =
      ((decRun p (decStep p S b).1 w).1, (decStep p S b).2 ++ (decRun p (decStep p S b).1 w).2) := rfl

/-- A run over two pieces is the run over the second from where the first ends (R92). -/
theorem decRun_append (u w : List Byte) :
    decRun p S (u ++ w) =
      ((decRun p (decRun p S u).1 w).1, (decRun p S u).2 ++ (decRun p (decRun p S u).1 w).2) := by
  induction u generalizing S with
  | nil => rfl
  | cons b u ih => simp [ih]

/-- A response code, one of six. -/
theorem isCode_cases (h : isCode b = true) :
    b = 0xA0 ∨ b = 0xA1 ∨ b = 0xA2 ∨ b = 0xA4 ∨ b = 0xA5 ∨ b = 0xEF := by
  unfold isCode classify at h
  repeat' split at h
  all_goals simp_all

theorem isCode_iff_mem : isCode b = Config.responseCodes.contains b := by
  unfold isCode classify Config.responseCodes
  repeat' split
  all_goals simp_all

/-- What each response code opens (40_decoder_step.md R82). -/
theorem openFrame_inDomain (h : isCode b = true) : (openFrame b S).inDomain = true := by
  rcases isCode_cases b h with rfl | rfl | rfl | rfl | rfl | rfl <;> rfl

theorem inDomain_of_idle (h : S.state = .idle) : S.inDomain = true := by
  simp [Session.inDomain, h]

/-- The domain of the step is kept by the step, so one check at the start of a run is enough. -/
theorem decStep_inDomain (h : S.inDomain = true) : (decStep p S b).1.inDomain = true := by
  cases hs : S.state with
  | idle =>
    rw [decStep_idle p S b hs]
    by_cases hc : isCode b = true
    · simp [stepIdle_code p S b hc, openFrame_inDomain _ _ hc]
    · rw [stepIdle_text p S b (by simpa using hc), accumulateInfo_eq]
      split <;> exact inDomain_of_idle _ hs
  | awaitingLength =>
    have hk : S.kind = .message := by simpa [Session.inDomain, hs] using h
    rw [decStep_length p S b hs]
    cases hb : S.buf with
    | nil => rw [stepLength_first p S b hb]; simp [Session.inDomain, hs, hk]
    | cons hi t =>
      rw [stepLength_second p S b hb]
      split
      · rw [complete_session]; rfl
      · simp [Session.inDomain, hk]
  | awaitingData =>
    rw [decStep_data p S b hs]
    by_cases hz : S.explen = 0
    · rw [stepData_zero p S b hz, stepHang_eq]
      simpa [Session.inDomain, hs] using h
    · rw [stepData_nonzero p S b hz]
      split
      · rw [complete_session]; rfl
      · simpa [Session.inDomain, hs] using h
  | awaitingInfoByte => rw [decStep_infoByte p S b hs]; rfl

theorem decRun_inDomain (w : List Byte) (h : S.inDomain = true) :
    (decRun p S w).1.inDomain = true := by
  induction w generalizing S with
  | nil => exact h
  | cons b w ih => exact ih _ (decStep_inDomain p S b h)

/-- Everything `feed` can do inside the domain. -/
theorem feed_of_inDomain (w : List Byte) (s : State) (h : s.session.inDomain = true) :
    feed w s = .next { s with
      session := (decRun s.par s.session w).1, ev := s.ev ++ (decRun s.par s.session w).2 } := by
  simp [feed, h]

/-- Everything `feed` can do outside the domain. -/
theorem feed_of_not_inDomain (w : List Byte) (s : State) (h : s.session.inDomain = false) :
    feed w s = .fault .sessionOutsideDomain := by
  simp [feed, h]

/-- Feeding one byte is one `DecStep`. -/
theorem feed_one (s : State) (h : s.session.inDomain = true) :
    feed [b] s = .next { s with
      session := (decStep s.par s.session b).1, ev := s.ev ++ (decStep s.par s.session b).2 } := by
  simp [feed, h]

/-- Feeding goes on from the state after the first byte. -/
theorem feed_cons (w : List Byte) (s : State) (h : s.session.inDomain = true) :
    feed (b :: w) s = feed w { s with
      session := (decStep s.par s.session b).1, ev := s.ev ++ (decStep s.par s.session b).2 } := by
  simp [feed, h, decStep_inDomain _ _ b h]

/-- What a next state of `feed` is: only the session and the delivered events are written. -/
theorem feed_next {w : List Byte} {s t : State} (h : feed w s = .next t) :
    s.session.inDomain = true ∧
      t = { s with
        session := (decRun s.par s.session w).1, ev := s.ev ++ (decRun s.par s.session w).2 } := by
  cases hd : s.session.inDomain with
  | false => simp [feed_of_not_inDomain w s hd] at h
  | true =>
    rw [feed_of_inDomain w s hd] at h
    injection h with h
    exact ⟨rfl, h.symm⟩

end Sys2Proof.Machine
end

