-- ==== Sys2Proof/Laws/PerInstr.lean ====
section
/-! SUPPORT. The length of an encoded instruction, told from its leading byte (30_encoding.md R69). -/

namespace Sys2Proof.Laws.FrameLength

/-- A well-formed inbound instruction's bytes are its leading byte and as many as R69 says follow it; an
outbound frame holds at least the preamble. -/
def Statement (i : Instr) : Prop :=
  i.wf = true → ∀ m0 m1 : Byte,
    if i.inbound then (encode m0 m1 i).length = 1 + bytesAfterLeading (encode m0 m1 i)
    else 2 ≤ (encode m0 m1 i).length

theorem version (d0 d1 : Byte) : Statement (.version d0 d1) := fun _ _ _ => rfl

theorem ack (b : Byte) : Statement (.ack b) := fun _ _ _ => rfl

theorem data (d0 d1 : Byte) : Statement (.data d0 d1) := fun _ _ _ => rfl

theorem interrupt (b : Byte) : Statement (.interrupt b) := fun _ _ _ => rfl

theorem error (b : Byte) : Statement (.error b) := fun _ _ _ => rfl

theorem message (p : List Byte) : Statement (.message p) := by
  intro hw m0 m1
  have hl : p.length ≤ 65535 := of_decide_eq_true hw
  have hb := be16_lengthBytes p.length hl
  show p.length + 1 + 1 + 1 = 1 + (2 + (be16 (lengthBytes p.length).1 (lengthBytes p.length).2).toNat)
  omega

theorem infotext (b : Byte) : Statement (.infotext b) := by
  intro hw m0 m1
  have hc : classify b = .none := by
    have : ¬ b ∈ Config.responseCodes := by simpa [Instr.wf] using hw
    simp [Config.responseCodes] at this
    simp [classify, this]
  simp [Instr.inbound, encode, bytesAfterLeading, hc]

theorem encode (c : List Byte) : Statement (.encode c) := by
  intro _ m0 m1
  simp [Instr.inbound, Sys2Proof.encode]

end Sys2Proof.Laws.FrameLength
end

