-- ==== Sys2Proof/Laws/Step.lean ====
section
/-! SUPPORT. What a step, a host move and an edge's halves can do, said once. -/

namespace Sys2Proof.Machine

/-- A well-formed inbound instruction runs its own bytes through the decoder. -/
theorem exec_inbound {i : Instr} (hw : i.wf = true) (hi : i.inbound = true) (m0 m1 : Byte) (s : State) :
    exec i s = feed (encode m0 m1 i) s := by
  cases i with
  | version d0 d1 => rfl
  | ack b => rfl
  | data d0 d1 => rfl
  | interrupt b => rfl
  | error b => rfl
  | message q => exact if_pos (of_decide_eq_true hw)
  | infotext b =>
    have hc : isCode b = false := by
      rw [isCode_iff_mem]
      exact (Bool.not_eq_true' _).mp hw
    change execInfotext b s = _
    simp [execInfotext, hc, encode]
  | encode c => cases hi

/-- A term without an encoding is refused. -/
theorem exec_of_not_wf {i : Instr} (hw : i.wf = false) (s : State) :
    exec i s = .refused .illFormed := by
  cases i with
  | message q => exact if_neg (of_decide_eq_false hw)
  | infotext b =>
    have hc : isCode b = true := by
      rw [isCode_iff_mem]
      exact (Bool.not_eq_false' _).mp hw
    exact if_pos hc
  | version _ _ | ack _ | data _ _ | interrupt _ | error _ | encode _ => cases hw

/-- Everything a meaning can do when it answers a next state: an inbound instruction's bytes went
through the decoder, or a command was encoded. -/
theorem exec_next {i : Instr} {s t : State} (h : exec i s = .next t) :
    (i.wf = true ∧ i.inbound = true ∧ ∀ m0 m1, feed (encode m0 m1 i) s = .next t) ∨
      (∃ c, i = .encode c ∧ t = c.foldl encByte (encStart s)) := by
  cases hw : i.wf with
  | false => rw [exec_of_not_wf hw] at h; cases h
  | true =>
    cases hi : i.inbound with
    | true => exact .inl ⟨rfl, rfl, fun m0 m1 => exec_inbound hw hi m0 m1 s ▸ h⟩
    | false =>
      cases i with
      | encode c =>
        change Host.Outcome.next (c.foldl encByte (encStart s)) = _ at h
        injection h with h
        exact .inr ⟨c, rfl, h.symm⟩
      | version _ _ | ack _ | data _ _ | interrupt _ | message _ | error _ | infotext _ => cases hi

/-- The encoder writes TX only. -/
theorem foldl_encByte_frame (c : List Byte) (s : State) :
    c.foldl encByte s = { s with tx := (c.foldl encByte s).tx } := by
  induction c generalizing s with
  | nil => rfl
  | cons b c ih => rw [List.foldl_cons, ih]; rfl

/-- A step with a command waiting is the encoder's. -/
theorem step_command {s : State} {c : List Byte} {cmd : List (List Byte)} (hc : s.cmd = c :: cmd) :
    step s = exec (.encode c) { s with cmd := cmd } := by
  simp [step, fetch, hc]

/-- A step with a byte and no command waiting is the decoder's. -/
theorem step_byte {s : State} {b : Byte} {rx : List Byte} (hc : s.cmd = []) (hr : s.rx = b :: rx) :
    step s = feed [b] { s with rx := rx } := by
  simp [step, fetch, fetchInbound, hc, hr]

/-- A step with nothing waiting leaves the state. -/
theorem step_idle {s : State} (hc : s.cmd = []) (hr : s.rx = []) : step s = .next s := by
  simp [step, fetch, fetchInbound, hc, hr]

/-- The three things a step can do. -/
theorem step_cases (s : State) :
    (∃ c cmd, s.cmd = c :: cmd ∧ step s = exec (.encode c) { s with cmd := cmd }) ∨
    (∃ b rx, s.cmd = [] ∧ s.rx = b :: rx ∧ step s = feed [b] { s with rx := rx }) ∨
    (s.cmd = [] ∧ s.rx = [] ∧ step s = .next s) := by
  rcases hc : s.cmd with _ | ⟨c, cmd⟩
  · rcases hr : s.rx with _ | ⟨b, rx⟩
    · exact .inr (.inr ⟨rfl, rfl, step_idle hc hr⟩)
    · exact .inr (.inl ⟨b, rx, rfl, rfl, by rw [step_byte hc hr, hc]⟩)
  · exact .inl ⟨c, cmd, rfl, step_command hc⟩

/-- A run goes on from the next state of its first step. -/
theorem runSteps_next {s t : State} (k : Nat) (h : step s = .next t) :
    runSteps (k + 1) s = runSteps k t := by
  simp [runSteps, h]

/-- The steps over the bytes at the head of RX are one run of the decoder over them. -/
theorem runSteps_bytes (w rest : List Byte) (s : State) (hd : s.session.inDomain = true)
    (hc : s.cmd = []) (hr : s.rx = w ++ rest) :
    runSteps w.length s = feed w { s with rx := rest } := by
  induction w generalizing s with
  | nil =>
    have : rest = s.rx := hr.symm
    simp [runSteps, feed, hd, this]
  | cons b w ih =>
    have hs := (step_byte hc hr).trans (feed_one b { s with rx := w ++ rest } hd)
    rw [List.length_cons, runSteps_next _ hs, feed_cons b w { s with rx := rest } hd]
    exact ih { s with
      rx := w ++ rest
      session := (decStep s.par s.session b).1
      ev := s.ev ++ (decStep s.par s.session b).2 } (decStep_inDomain _ _ _ hd) hc rfl

/-- The step after `placeFrame` is the decoder's run over the whole frame, from the frame's start. -/
theorem step_placeFrame (s : State) (w : List Byte) (hw : w ≠ []) :
    step (placeFrame s w) = feed w { s with session := s.session.atBoundary, cmd := [] } := by
  have hd : s.session.atBoundary.inDomain = true := by
    unfold Session.atBoundary
    split
    · exact inDomain_of_idle _ ‹_›
    · rfl
  have hl : w.getLast?.toList ++ s.rx = w.getLast hw :: s.rx := by simp [List.getLast?_eq_some_getLast hw]
  have hr := decRun_append s.par s.session.atBoundary w.dropLast [w.getLast hw]
  rw [List.dropLast_concat_getLast hw] at hr
  have hk := decRun_inDomain s.par _ w.dropLast hd
  rw [step_byte (s := placeFrame s w) rfl hl]
  simp [feed, placeFrame, hd, hk, hr]

/-- The encoder's half of an edge writes TX and its held bytes only. -/
theorem encoderEdge_frame (e : EdgeIn) (s : State) :
    encoderEdge e s =
      { s with tx := (encoderEdge e s).tx, encPending := (encoderEdge e s).encPending } := by
  unfold encoderEdge
  repeat' split
  all_goals rfl

/-- Everything an accepted byte can do: no event, a request to the codec, or a pending event. -/
theorem takeByte_next {b : Byte} {s t : State} (h : takeByte b s = .next t) :
    s.session.inDomain = true ∧
      (((decStep s.par s.session b).2 = [] ∧ t = { s with session := (decStep s.par s.session b).1 }) ∨
        ∃ e es, (decStep s.par s.session b).2 = e :: es ∧
          ((e.fromCodec = true ∧ t = { s with
              session := (decStep s.par s.session b).1
              mpPending := some (completedPayload s.session b) }) ∨
            (e.fromCodec = false ∧ t = { s with
              session := (decStep s.par s.session b).1
              evPending := some { event := e, window := e.window [] } }))) := by
  unfold takeByte at h
  split at h
  · rename_i hd
    refine ⟨hd, ?_⟩
    dsimp only at h
    split at h
    · rename_i he
      cases h
      exact .inl ⟨he, rfl⟩
    · rename_i e es he
      refine .inr ⟨e, es, he, ?_⟩
      split at h <;> rename_i hc <;> cases h
      · exact .inl ⟨hc, rfl⟩
      · exact .inr ⟨by simpa using hc, rfl⟩
  · cases h

/-- Everything the decoder's half of an edge can do. -/
theorem decoderEdge_next {e : EdgeIn} {s t : State} (h : decoderEdge e s = .next t) :
    t = s ∨
    (∃ x, s.evPending = some x ∧ e.evReady = true ∧
      t = { s with evPending := none, ev := s.ev ++ [x.event] }) ∨
    (∃ raw, s.evPending = none ∧ s.mpPending = some raw ∧ e.mpAnswer = true ∧
      t = { s with
        mpPending := none
        evPending := some { event := codecReply s.par raw, window := raw } }) ∨
    (s.evPending = none ∧ s.mpPending = none ∧ e.rxValid = true ∧
      takeByte e.rxData s = .next t) := by
  unfold decoderEdge at h
  split at h
  · rename_i x hx
    split at h <;> cases h
    · rename_i hr
      exact .inr (.inl ⟨x, hx, hr, rfl⟩)
    · exact .inl rfl
  · rename_i hn
    split at h
    · rename_i raw hm
      split at h <;> cases h
      · rename_i hr
        exact .inr (.inr (.inl ⟨raw, hn, hm, hr, rfl⟩))
      · exact .inl rfl
    · rename_i hm
      split at h
      · rename_i hv
        exact .inr (.inr (.inr ⟨hn, hm, hv, h⟩))
      · cases h
        exact .inl rfl

end Sys2Proof.Machine
end

