-- ==== Sys2Proof/Tests/Slice0.lean ====
section
/-! SUPPORT. Tests. Their expected values are the spec's own vectors (95_test_vectors.md, named in each
comment) or words written out from opcode_table.json; `witness_<Name>` meets the hypotheses of the
statement of that name. -/

namespace Sys2Proof.Tests

open Sys2Proof Sys2Proof.Machine

/-- The example-only markers 11, 22 of 95_test_vectors.md part 2.6. -/
def par : Params := { Config.params with mark0 := 0x11, mark1 := 0x22 }

/-- The state after reset, under `par`. -/
def start : State := { State.reset with par := par }

/-- `start` with another session. -/
def within (S : Session) : State := { start with session := S }

/-- What a test looks at: the session, the events and TX of a next state. -/
def seen : Host.Outcome State Fault Refusal → Option (Session × List Event × List Byte)
  | .next s => some (s.session, s.ev, s.tx)
  | .fault _ => none
  | .refused _ => none

/-! Well-formedness smoke tests: each check refuses a term. -/

theorem test_wf_infotext_of_a_code : (Instr.infotext 0xA1).wf = false := by decide

/-- The check on a MESSAGE payload, as a bound on its length. -/
theorem message_wf (n : Nat) :
    (Instr.message (List.replicate n 0)).wf = decide (n ≤ Config.bufCap) := by simp [Instr.wf]

theorem test_wf_message_too_long : (Instr.message (List.replicate 65536 0)).wf = false :=
  message_wf 65536

/-! Decoding: words written out bit by bit from opcode_table.json. -/

theorem test_decode_version : decode [0b10100000#8, 0x01, 0x02] = .frame (.version 0x01 0x02) [] := by
  decide

theorem test_decode_ack : decode [0b10100001#8, 0x07] = .frame (.ack 0x07) [] := by decide

theorem test_decode_data : decode [0b10100010#8, 0x12, 0x34] = .frame (.data 0x12 0x34) [] := by
  decide

theorem test_decode_interrupt : decode [0b10100100#8, 0x01] = .frame (.interrupt 0x01) [] := by
  decide

theorem test_decode_message :
    decode [0b10100101#8, 0x00, 0x02, 0x68, 0x69] = .frame (.message [0x68, 0x69]) [] := by decide

theorem test_decode_error : decode [0b11101111#8, 0x02] = .frame (.error 0x02) [] := by decide

/-- V-C7: A3 is not a code. -/
theorem test_decode_infotext : decode [0b10100011#8, 0xA1] = .frame (.infotext 0xA3) [0xA1] := by
  decide

theorem test_decode_encode_row : decodeTableWord 16 0x2211 = some (.encode []) := by decide

/-- V-F11: three bytes of a longer MESSAGE frame are no frame yet. -/
theorem test_decode_incomplete : decode [0xA5, 0x01, 0x02] = .reject (.incompleteFrame .message) := by
  decide

/-! Instructions, each one step. -/

/-- V-F1. -/
theorem test_version : seen (exec (.version 0x01 0x02) start) =
    some (Session.reset, [.dataReceived .version [0x01, 0x02]], []) := by decide

/-- S4. -/
theorem test_ack : seen (exec (.ack 0x07) start) = some (Session.reset, [.ack 0x07], []) := by decide

/-- V-F5: one frame, not two. -/
theorem test_ack_of_a_code : seen (exec (.ack 0xA1) start) = some (Session.reset, [.ack 0xA1], []) := by
  decide

/-- V-F6: codes inside a frame are data. -/
theorem test_data_of_codes : seen (exec (.data 0xA5 0xEF) start) =
    some (Session.reset, [.dataReceived .data [0xA5, 0xEF]], []) := by decide

/-- P2 byte 8 and 9: the pending text comes first. -/
theorem test_interrupt_after_text :
    seen (exec (.interrupt 0x03) (within { Session.reset with info := [0x3E] })) =
      some (Session.reset, [.informationText [0x3E], .interrupt 0x03], []) := by decide

/-- V-F4. -/
theorem test_error : seen (exec (.error 0x02) start) =
    some (Session.reset, [.error (.resp 0x02)], []) := by decide

/-- S3: the payload "hi" is no record. -/
theorem test_message_of_no_record : seen (exec (.message [0x68, 0x69]) start) =
    some (Session.reset, [.error (.decode (.truncatedStream 4 2))], []) := by decide

/-- V-F10: the message of S2. -/
theorem test_message_of_uri :
    seen (exec (.message [0xD1, 0x01, 0x0C, 0x55, 0x01, 0x65, 0x78, 0x61, 0x6D, 0x70, 0x6C, 0x65, 0x2E,
      0x63, 0x6F, 0x6D]) start) =
    some (Session.reset, [.messageDecoded [{
      type := [0x55], tnf := 1,
      payload := [0x01, 0x65, 0x78, 0x61, 0x6D, 0x70, 0x6C, 0x65, 0x2E, 0x63, 0x6F, 0x6D],
      fields := .uri 1 (ascii "example.com") (ascii "http://www.example.com") }]], []) := by decide

/-- V-C7: A3 is stored as `?`. -/
theorem test_infotext_filters : seen (exec (.infotext 0xA3) start) =
    some ({ Session.reset with info := [0x3F] }, [], []) := by decide

/-- V-I4, byte 4: the early flush of a finite INFO_CAP. -/
theorem test_infotext_at_capacity :
    seen (exec (.infotext 0x44) { start with
      par := { par with infoCap := some 4 }
      session := { Session.reset with info := [0x41, 0x42, 0x43] } }) =
    some (Session.reset, [.informationText [0x41, 0x42, 0x43, 0x44]], []) := by decide

/-- V-E18. -/
theorem test_encode : seen (exec (.encode [0xA5, 0x00, 0x11, 0x22, 0x33]) start) =
    some (Session.reset, [], [0x11, 0x22, 0xA5, 0x00, 0x22, 0x11, 0x22, 0x33]) := by decide

/-- V-E20: equal markers. -/
theorem test_encode_equal_markers :
    seen (exec (.encode [0x33, 0x01, 0x33]) { start with
      par := { par with mark0 := 0x33, mark1 := 0x33 } }) =
    some (Session.reset, [], [0x33, 0x33, 0x33, 0x33, 0x01, 0x33, 0x33]) := by decide

/-! The byte step, the step and reset. -/

/-- V-F9 in HANG mode: absorbed without an event. -/
theorem test_hang : decRun { par with zeroLenMode := .hang } Session.reset [0xA5, 0, 0, 0xA1, 0x05] =
    ({ state := .awaitingData, buf := [0xA1, 0x05], explen := 0, kind := .message, info := [] }, []) := by
  decide

/-- P3: a short MESSAGE frame swallows the frames after it. -/
theorem test_no_resynchronisation :
    decRun par Session.reset
      [0xA5, 0x00, 0x06, 0xD1, 0x01, 0x02, 0xA1, 0x07, 0xA2, 0x11, 0x22, 0xA4, 0x05] =
    (Session.reset, [.error (.decode (.unknownRecordType [0xA1])), .informationText [0x3F, 0x22],
      .interrupt 0x05]) := by decide

/-- R8: a step takes one byte, here the first of an ACK frame. -/
theorem test_step_takes_one_byte :
    (match step { start with rx := [0xA1, 7] } with
      | .next t => some (t.rx, t.session.state, t.ev)
      | _ => none) = some ([7], .awaitingInfoByte, []) := by decide

/-- A table word placed at reset runs as the next step. -/
theorem test_first_step_after_reset :
    seen (step (State.reset.withFetchWord 8 0xA2)) =
      some (Session.reset, [.dataReceived .data [0, 0]], []) := by rfl

/-- V-R1. -/
theorem test_reset_mid_frame :
    ((within ⟨.awaitingData, [0xD1, 0x01], 16, .message, []⟩).afterMove .reset).session =
      Session.reset := by decide

/-- R51: an accepted byte that completes an ACK frame makes its event pending, and the block not ready. -/
theorem test_edge_makes_the_event_pending :
    (match clockEdge { EdgeIn.quiet with rxValid := true, rxData := 0x07 }
        (within { state := .awaitingInfoByte, buf := [0xA1], explen := 0, kind := .ack, info := [] }) with
      | .next t => some (t.session, t.evPending, t.rxReady)
      | _ => none) =
    some (Session.reset, some { event := .ack 0x07, window := [] }, false) := by decide

/-- R51: with no event pending, `ev_code` and `ev_src` are 0. -/
theorem test_idle_ports :
    ((start.outputs EdgeIn.quiet).evValid, (start.outputs EdgeIn.quiet).evCode,
      (start.outputs EdgeIn.quiet).evSrc) = (false, 0, false) := by decide

/-! The codec (95_test_vectors.md part 2.5, S1, S2). -/

/-- V-M5, V-M10, V-M11, V-M14: truncation. -/
theorem test_parse_truncated :
    msgParse Config.registry [0xD1, 0x01, 0x05, 0x55, 0x01, 0x02] = .err (.truncatedStream 5 2) ∧
    msgParse Config.registry [0xC1, 0x01, 0x00, 0x00, 0x00] = .err (.truncatedStream 6 5) ∧
    msgParse Config.registry [0xD1, 0x09, 0x00, 0x55] = .err (.truncatedStream 9 1) ∧
    msgParse Config.registry [0x91, 0x01, 0x02, 0x55, 0x00, 0x61, 0x51, 0x01, 0x00] =
      .err (.truncatedStream 4 3) := by decide

/-- V-M4, V-M6, V-M12: the other causes. -/
theorem test_parse_causes :
    msgParse Config.registry [0xD1, 0x01, 0x00, 0x58] = .err (.unknownRecordType [0x58]) ∧
    msgParse Config.registry [0xD1, 0x01, 0x00, 0x55] = .err .malformedRecordPayload ∧
    msgParse Config.registry [0xD1, 0x00, 0x00, 0x00] = .err (.unknownRecordType []) := by decide

/-- V-M7, V-M8, V-M9: the degraded Text, the clamped URI index, the long form. -/
theorem test_parse_variants :
    msgParse Config.registry [0xD1, 0x01, 0x02, 0x54, 0x02, 0x65] = .ok [{
      type := [0x54], tnf := 1, payload := [0x02, 0x65], fields := .text (ascii "en") [] }] ∧
    msgParse Config.registry [0xD1, 0x01, 0x02, 0x55, 0x24, 0x78] = .ok [{
      type := [0x55], tnf := 1, payload := [0x24, 0x78], fields := .uri 0 [0x78] [0x78] }] ∧
    msgParse Config.registry [0xC1, 0x01, 0, 0, 0, 0x02, 0x55, 0x03, 0x61] = .ok [{
      type := [0x55], tnf := 1, payload := [0x03, 0x61],
      fields := .uri 3 [0x61] (ascii "http://a") }] := by decide

/-- V-M15: two records, the second an Android record. -/
theorem test_parse_two_records :
    msgParse Config.registry
      ([0x91, 0x01, 0x05, 0x54, 0x02, 0x65, 0x6E, 0x68, 0x69, 0x54, 0x0F, 0x05] ++
        ascii "android.com:pkg" ++ ascii "com.x") = .ok [
      { type := [0x54], tnf := 1, payload := [0x02, 0x65, 0x6E, 0x68, 0x69],
        fields := .text (ascii "en") (ascii "hi") },
      { type := ascii "android.com:pkg", tnf := 4, payload := ascii "com.x",
        fields := .android (ascii "com.x") }] := by decide

/-- S1, S2. -/
theorem test_serialize_uri :
    uriEncodePayload (ascii "http://www.example.com") = 0x01 :: ascii "example.com" ∧
    serialize [{ type := [0x55], tnf := 1, payload := 0x01 :: ascii "example.com",
                 fields := .uri 1 [] [] }] =
      [0xD1, 0x01, 0x0C, 0x55, 0x01, 0x65, 0x78, 0x61, 0x6D, 0x70, 0x6C, 0x65, 0x2E, 0x63, 0x6F, 0x6D]
    := by decide

/-! Witnesses. Sessions inside each decode state, and that they meet the invariant. -/

/-- A finite capacity, and the HANG mode. -/
def par4 : Params := { par with infoCap := some 4 }

def parHang : Params := { par with zeroLenMode := .hang }

def sText : Session := { Session.reset with info := [0x68, 0x69, 0x3F] }

def sLen0 : Session := { Session.reset with state := .awaitingLength, kind := .message }

def sLen1 (h : Byte) : Session := { sLen0 with buf := [h] }

def sData (k : Kind) : Session :=
  { Session.reset with state := .awaitingData, kind := k, explen := 2, buf := [0x12] }

def sHang : Session := { Session.reset with state := .awaitingData, kind := .message }

def sInfo (k : Kind) : Session :=
  { Session.reset with state := .awaitingInfoByte, kind := k, buf := [k.code] }

theorem par_wf : par.wf := by
  refine ⟨by decide, ?_, ?_⟩
  · show ∀ e ∈ Config.registry, 1 ≤ e.1.length ∧ e.1.length ≤ 255
    decide
  · show (Config.registry.map Prod.fst).Nodup
    decide

theorem start_inv : start.Inv := by
  refine ⟨par_wf, ⟨⟨rfl, rfl, rfl⟩, ?_, ?_⟩, ?_, ?_, ?_, .inl rfl, ?_⟩ <;>
    simp [start, State.reset, Session.reset, par, Config.params]

theorem sText_inv : sText.Inv par4 := by
  refine ⟨⟨rfl, rfl, rfl⟩, by decide, ?_⟩
  intro cap h
  cases h
  decide

theorem sLen0_inv (p : Params) (h : p.infoCap = none) : sLen0.Inv p := by
  refine ⟨⟨rfl, by decide, rfl⟩, ?_, ?_⟩ <;> simp [sLen0, Session.reset, h]

theorem sLen1_inv (p : Params) (h : p.infoCap = none) (b : Byte) : (sLen1 b).Inv p := by
  refine ⟨⟨rfl, Nat.le_refl 1, rfl⟩, ?_, ?_⟩ <;> simp [sLen1, sLen0, Session.reset, h]

theorem sData_inv (k : Kind) (h : k = .message ∨ k = .data ∨ k = .version) : (sData k).Inv par := by
  refine ⟨⟨h, rfl, fun _ => rfl, (by decide : (1 : Nat) < 2)⟩, ?_, ?_⟩ <;>
    simp [sData, Session.reset, par, Config.params]

theorem sHang_inv : sHang.Inv parHang := by
  refine ⟨⟨.inl rfl, rfl, fun h => absurd rfl h, .inl ⟨rfl, by decide⟩⟩, ?_, ?_⟩ <;>
    simp [sHang, Session.reset, parHang, par, Config.params]

theorem sInfo_inv (k : Kind) (h : k = .ack ∨ k = .error ∨ k = .interrupt) : (sInfo k).Inv par := by
  refine ⟨⟨h, rfl, rfl⟩, ?_, ?_⟩ <;> simp [sInfo, Session.reset, par, Config.params]

theorem witness_DecodeInvertsEncode :
    (Instr.message (List.replicate 65535 0)).wf = true ∧
      (Instr.message (List.replicate 65535 0)).inbound = true ∧
      (Instr.infotext 0xA3).wf = true ∧ (Instr.infotext 0xA3).inbound = true := by
  exact ⟨message_wf 65535, rfl, by decide, rfl⟩

theorem witness_EncodeInvertsDecode : decode [0xA5, 0, 1, 0x55, 0x41] = .frame (.message [0x55]) [0x41] := by
  decide

theorem witness_StepRunsWhatItFetches :
    ({ start with cmd := [[0x11]] } : State).cmd = [0x11] :: [] ∧
    (start.cmd = [] ∧ ({ start with rx := [0xA1, 7] } : State).rx = 0xA1 :: [7] ∧
      start.session.inDomain = true) ∧
    (start.cmd = [] ∧ start.rx = []) ∧
    ((Instr.ack 7).wf = true ∧ (Instr.ack 7).inbound = true ∧
      ({ start with rx := [0xA1, 7, 0x55] } : State).rx = encode 0x11 0x22 (.ack 7) ++ [0x55]) ∧
    decode ({ start with rx := [0xA1, 7, 0x55] } : State).rx = .frame (.ack 7) [0x55] := by decide

theorem witness_PlacedTableWordRunsNext :
    decodeTableWord 8 0xA5 = some (.message []) ∧ decodeTableWord 16 0x0000 = some (.encode []) ∧
      decodeTableWord 8 0xFF = some (.infotext 0xFF) := by decide

/-- One state for each row of the table. -/
theorem witness_TransitionTable :
    sText.Inv par4 ∧ sText.state = .idle ∧ par4.infoCap = some (sText.info.length + 1) ∧
    sLen0.Inv par ∧ sLen0.state = .awaitingLength ∧ sLen0.buf = [] ∧
    (sLen1 0xFF).Inv par ∧ (sLen1 0xFF).buf = [0xFF] ∧ be16 0xFF 0xFF ≠ 0 ∧
    (sLen1 0).Inv par ∧ be16 0 0 = 0 ∧ par.zeroLenMode = .immediate ∧
    (sLen1 0).Inv parHang ∧ parHang.zeroLenMode = .hang ∧
    (sData .message).Inv par ∧ (sData .message).buf.length + 1 = (sData .message).explen.toNat ∧
    (sData .data).Inv par ∧ (sData .version).Inv par ∧
    sHang.Inv parHang ∧ sHang.explen = 0 ∧
    (sInfo .ack).Inv par ∧ (sInfo .error).Inv par ∧ (sInfo .interrupt).Inv par :=
  ⟨sText_inv, rfl, rfl, sLen0_inv _ rfl, rfl, rfl, sLen1_inv _ rfl _, rfl, by decide,
    sLen1_inv _ rfl _, by decide, rfl, sLen1_inv _ rfl _, rfl, sData_inv _ (.inl rfl), rfl,
    sData_inv _ (.inr (.inl rfl)), sData_inv _ (.inr (.inr rfl)), sHang_inv, rfl,
    sInfo_inv _ (.inl rfl), sInfo_inv _ (.inr (.inl rfl)), sInfo_inv _ (.inr (.inr rfl))⟩

/-- A payload not yet complete after the byte (a row of the table above). -/
theorem witness_TransitionTable_more :
    ({ sData .message with explen := 3 } : Session).Inv par ∧
      ({ sData .message with explen := 3 } : Session).buf.length + 1 < 3 := by
  refine ⟨⟨⟨.inl rfl, rfl, fun h => absurd rfl h, (by decide : (1 : Nat) < 3)⟩, ?_, ?_⟩, by decide⟩ <;>
    simp [sData, Session.reset, par, Config.params]

theorem witness_FrameEndsOnlyByCompletion :
    (sData .data).Inv par ∧ (sData .data).state ≠ .idle ∧
      (decStep par (sData .data) 0x34).1.state = .idle :=
  ⟨sData_inv _ (.inr (.inl rfl)), by decide, by decide⟩

theorem witness_HangAbsorbsEveryByte :
    sHang.state = .awaitingData ∧ sHang.explen = 0 ∧ sHang.buf.length ≤ Config.bufCap := by decide

theorem witness_InstructionBytesInsideAPayloadAreData :
    (Instr.ack 7).wf = true ∧ (Instr.ack 7).inbound = true ∧
      (within { sData .message with explen := 4 }).session.state = .awaitingData ∧
      (within { sData .message with explen := 4 }).session.kind = .message ∧
      ({ sData .message with explen := 4 } : Session).buf.length + (encode 0x11 0x22 (.ack 7)).length <
        (4 : BitVec 16).toNat := by decide

/-- Idle with text pending, for the frames of fixed size. -/
theorem witness_FixedTwoFramesDeliverTheirBytes : (within sText).session.state = .idle := by decide

theorem witness_InfoByteFramesDeliverTheirByte :
    (within sText).session.state = .idle ∧ sText.info ≠ [] := by decide

theorem witness_MessageFrameDeliversTheCodecsReply :
    (within sText).session.state = .idle ∧ (List.replicate 65535 (0 : Byte)).length ≤ 65535 ∧
      ([] : List Byte).length ≤ 65535 ∧ (within sText).par.zeroLenMode = .immediate := by
  exact ⟨rfl, Nat.le_of_eq List.length_replicate, by decide, rfl⟩

theorem witness_EmptyMessageHangsInHangMode :
    ({ within sText with par := parHang } : State).session.state = .idle ∧
      ({ within sText with par := parHang } : State).par.zeroLenMode = .hang := by decide

/-- Both branches: a capacity met, and none. -/
theorem witness_InfotextAppendsTheFilteredByte :
    (within sText).session.state = .idle ∧ (0xA3 : Byte) ∉ Config.responseCodes ∧
      ({ within sText with par := par4 } : State).par.infoCap = some (sText.info.length + 1) ∧
      (within sText).par.infoCap ≠ some (sText.info.length + 1) := by decide

theorem witness_FilterReplacesUnprintableBytes :
    ({ par with printable := [(0x20, 0x7E), (0x0D, 0x0D), (0x0A, 0x0A)] } : Params).printable =
      [(0x20, 0x7E), (0x0D, 0x0D), (0x0A, 0x0A)] := rfl

theorem witness_TextRunsAreDeliveredWhole :
    sText.state = .idle ∧ sText.infoInv par4 ∧ par4.infoCap ≠ some 0 ∧
      ∀ b ∈ [(0x41 : Byte), 0xA3, 0x0D], b ∉ Config.responseCodes :=
  ⟨rfl, sText_inv.2, by decide, by decide⟩

theorem witness_EncodedLength :
    ∃ t, exec (.encode [0x11, 0x33]) start = .next t ∧ t.tx.length = 5 := ⟨_, rfl, rfl⟩

theorem witness_OutboundFramesCollide :
    start.par.mark0 ≠ start.par.mark1 ∧
      ∃ t u, exec (.encode ([0x05] ++ [start.par.mark1])) start = .next t ∧
        exec (.encode [0x06]) t = .next u ∧ u.tx = [0x11, 0x22, 0x05, 0x22, 0x11, 0x22, 0x06] :=
  ⟨by decide, _, _, rfl, rfl, by decide⟩

theorem witness_EveryInstructionCompletesWithinItsFrame :
    (within (sData .message)).session.inDomain = true ∧ start.session.inDomain = true ∧
      (∀ i ∈ [Instr.version 1 2, .ack 0, .data 0 0, .interrupt 0, .message [1], .error 0, .infotext 0x41],
        i.wf = true ∧ i.inbound = true) ∧
      (Instr.encode [0]).wf = true ∧ (Instr.encode [0]).inbound = false := by decide

theorem witness_StopsAreNamed :
    (Instr.infotext 0xEF).wf = false ∧ (Instr.ack 0).wf = true ∧ (Instr.ack 0).inbound = true ∧
      (within { sHang with kind := .ack }).session.inDomain = false := by decide

theorem witness_DecoderAndEncoderCommute :
    (Instr.ack 7).inbound = true ∧ (∃ t, exec (.ack 7) start = .next t) ∧
      ∃ u, exec (.encode [0x11]) start = .next u := ⟨rfl, ⟨_, rfl⟩, ⟨_, rfl⟩⟩

theorem witness_StepsRefineTheByteDecoder :
    ({ within (sData .message) with rx := [0xA1, 7], cmd := [[1]] } : State).session.inDomain = true := by
  decide

theorem witness_ParametersAreStatic :
    (∃ t, step { start with rx := [0xA1, 7] } = .next t) ∧
      ∃ t, clockEdge EdgeIn.quiet start = .next t := ⟨⟨_, rfl⟩, ⟨_, rfl⟩⟩

theorem witness_ByteStepKeepsTheSessionInvariant :
    par4.infoCap ≠ some 0 ∧ sText.Inv par4 ∧ parHang.infoCap ≠ some 0 ∧ sHang.Inv parHang :=
  ⟨by decide, sText_inv, by decide, sHang_inv⟩

theorem witness_StepKeepsTheInvariant :
    start.Inv ∧ ∃ t, step start = .next t := ⟨start_inv, _, rfl⟩

theorem witness_ClockEdgeKeepsTheInvariant :
    start.Inv ∧ ∃ t, clockEdge { EdgeIn.quiet with rxValid := true, rxData := 0xA1 } start = .next t :=
  ⟨start_inv, _, rfl⟩

theorem witness_RunsNeverStop : start.Inv := start_inv

theorem witness_UnexpectedResponseCodeIsNeverRaised :
    Session.reset.state = .idle ∧ classify 0xA3 = .none ∧
      DecodeCause.unexpectedResponseCode.code = 4 := by decide

theorem witness_OnlyAMessagesLastByteRaisesAnError :
    (sData .message).Inv par ∧
      .error (.decode (.truncatedStream 4 2)) ∈ (decStep par (sData .message) 0x69).2 :=
  ⟨sData_inv _ (.inl rfl), by decide⟩

theorem witness_ResetDropsWhatIsPending : ({ EdgeIn.quiet with rst := true } : EdgeIn).rst = true := rfl

/-- A pending event, held and accepted. -/
theorem witness_PendingEventHoldsBackBytes :
    ({ start with evPending := some { event := .ack 7, window := [] } } : State).evPending =
        some { event := .ack 7, window := [] } ∧
      EdgeIn.quiet.rst = false ∧ EdgeIn.quiet.evReady = false ∧
      ({ EdgeIn.quiet with evReady := true } : EdgeIn).evReady = true := by decide

theorem pending_inv (x : PendingEvent) (h : x.event.sound par) (hw : x.windowInv par) :
    ({ start with evPending := some x } : State).Inv := by
  refine ⟨start_inv.1, start_inv.2.1, start_inv.2.2.1, ?_, by simp [start, State.reset], .inr rfl,
    Nat.zero_le 2⟩
  intro e he
  cases he
  exact ⟨h, hw⟩

/-- One event of each tag, and each cause; the last byte of a window; none pending. -/
theorem witness_PortsShowThePendingEvent :
    ({ start with evPending := some ⟨.informationText [0x41, 0x42], [0x41, 0x42]⟩ } : State).Inv ∧
    ({ start with evPending := some ⟨.dataReceived .data [1, 2], [1, 2]⟩ } : State).Inv ∧
    ({ start with evPending := some ⟨.dataReceived .version [1, 2], [1, 2]⟩ } : State).Inv ∧
    ({ start with evPending := some ⟨.messageDecoded [], []⟩ } : State).Inv ∧
    ({ start with evPending := some ⟨.ack 7, []⟩ } : State).Inv ∧
    ({ start with evPending := some ⟨.error (.resp 7), []⟩ } : State).Inv ∧
    ({ start with evPending := some ⟨.error (.decode (.truncatedStream 4 2)), [0x68, 0x69]⟩ }
      : State).Inv ∧
    ({ start with evPending := some ⟨.error (.decode (.unknownRecordType [0x58])),
      [0xD1, 1, 0, 0x58]⟩ } : State).Inv ∧
    ({ start with evPending := some ⟨.error (.decode .malformedRecordPayload),
      [0xD1, 1, 0, 0x55]⟩ } : State).Inv ∧
    ({ start with evPending := some ⟨.interrupt 7, []⟩ } : State).Inv ∧
    [(0x41 : Byte), 0x42].length < 65536 ∧
    ({ EdgeIn.quiet with evRaddr := 1 } : EdgeIn).evRaddr.toNat < [(0x41 : Byte), 0x42].length ∧
    start.evPending = none :=
  ⟨pending_inv _ ⟨by decide, by decide⟩ rfl, pending_inv _ rfl rfl, pending_inv _ rfl rfl,
    pending_inv _ trivial rfl, pending_inv _ trivial rfl, pending_inv _ trivial rfl,
    pending_inv _ (fun h => nomatch h) (show _ = _ by decide),
    pending_inv _ (fun h => nomatch h) (show _ = _ by decide),
    pending_inv _ (fun h => nomatch h) (show _ = _ by decide),
    pending_inv _ trivial rfl, by decide, by decide, rfl⟩

/-- A request outstanding and answered, the completing byte of a MESSAGE, and the byte of each other event. -/
theorem witness_EdgeTakesOneByteWhenReady :
    ({ start with mpPending := some [0x68, 0x69] } : State).Inv ∧
    msgParse par.registry [0x68, 0x69] = .err (.truncatedStream 4 2) ∧
    msgParse par.registry [] = .ok [] ∧
    EdgeIn.quiet.rst = false ∧ start.evPending = none ∧ start.mpPending = none ∧
    (within (sData .message)).Inv ∧
    (decStep par (sData .message) 0x69).2 = [.error (.decode (.truncatedStream 4 2))] ∧
    (decStep par (sLen1 0) 0).2 = [.messageDecoded []] ∧
    (decStep par (sData .data) 0x34).2 = [.dataReceived .data [0x12, 0x34]] ∧
    (decStep par sText 0xA1).2 = [.informationText [0x68, 0x69, 0x3F]] ∧
    (decStep par (sInfo .ack) 7).2 = [.ack 7] ∧ (decStep par sText 0x41).2 = [] := by
  refine ⟨⟨start_inv.1, start_inv.2.1, start_inv.2.2.1, by simp [start, State.reset], ?_, .inl rfl,
    Nat.zero_le 2⟩, by decide, rfl, rfl, rfl, rfl, ⟨start_inv.1, sData_inv _ (.inl rfl),
    start_inv.2.2.1, start_inv.2.2.2⟩, by decide, by decide, by decide, by decide, by decide, by decide⟩
  intro raw h
  cases h
  decide

theorem witness_PortsRefineTheByteDecoder :
    start.session.inDomain = true ∧ start.evPending = none ∧ start.mpPending = none := by decide

theorem witness_BeatsEncodeTheCommand : start.encPending = [] := rfl

theorem witness_BlockStallsOnlyOnTheHost :
    start.Inv ∧ ∃ t, clockRun (List.replicate 2
      { EdgeIn.quiet with mpAnswer := true, evReady := true, txReady := true }) start = .next t :=
  ⟨start_inv, _, rfl⟩

theorem witness_MessageIsParsedRecordByRecord :
    (∀ e ∈ Config.registry, e.1 ≠ []) ∧ ([0xD1, 0x01, 0x00, 0x54] : List Byte) ≠ [] ∧
      [(0xD1 : Byte), 0x01, 0x00].length < 4 ∧
      parseRecord Config.registry [0xD1, 0x01, 0x00, 0x54] = .ok ({
        type := [0x54], tnf := 1, payload := [], fields := .text (ascii "en") [] }, 4) := by decide

/-- One over what remains: the payload of a short and of a long record; the long length field with 4 and 5
bytes; the name of a short and of a long record. -/
theorem witness_RecordIsNeverReadOutOfBounds :
    ((Header.fromByte 0xD1).shortRecord = true ∧ [(0x55 : Byte)].length = (1 : Byte).toNat ∧
      ([] : List Byte).length < (1 : Byte).toNat ∧
      1 ≤ [(0x55 : Byte)].length + ([] : List Byte).length) ∧
    ((Header.fromByte 0xC1).shortRecord = false ∧
      [(0x61 : Byte)].length < (((0 : Byte).toNat * 256 + (0 : Byte).toNat) * 256 + (0 : Byte).toNat) * 256 +
        (2 : Byte).toNat) ∧
    (3 ≤ [(1 : Byte), 0, 0].length ∧ [(1 : Byte), 0, 0, 0].length < 5) ∧
    (1 ≤ [(0x55 : Byte)].length ∧ [(0x55 : Byte)].length < (2 : Byte).toNat) ∧
    ([] : List Byte).length < (1 : Byte).toNat := by
  decide

theorem witness_OtherHeaderBitsAreIgnored :
    (Header.fromByte 0xD1).shortRecord = (Header.fromByte 0x39).shortRecord := by decide

theorem witness_ParseInvertsSerialize :
    (∀ e ∈ Config.registry, e.1 ≠ []) ∧
      ∀ r ∈ [({ type := [0x55], tnf := 1, payload := [0x01, 0x61], fields := .uri 1 [0x61] (ascii
        "http://www.a") } : Record)], r.type.length ≤ 255 ∧ r.payload.length < 4294967296 ∧
        buildRecord Config.registry r.type r.payload = .ok r := by decide

theorem witness_ShortMessagePayloadIsTruncated :
    1 ≤ [(0xD1 : Byte)].length ∧ [(0xD1 : Byte), 1, 0].length ≤ 3 := by decide

theorem witness_VariantsDecodeTheirPayloads :
    [(2 : Byte), 0x65].length < 3 ∧ (35 : Byte).toNat ≤ 35 ∧ 35 < (36 : Byte).toNat := by decide

theorem witness_AndroidRecordIsATransparentCopy :
    registryLookup Config.registry (ascii "android.com:pkg") = some .android := by decide

/-- Both cases of the index: an entry matches, none does. -/
theorem witness_UriEncodingRoundTrips :
    uriIndex (ascii "https://a") = 4 ∧ uriIndex (ascii "x") = 0 ∧ uriTable[4]? = some (ascii "https://") := by
  decide

end Sys2Proof.Tests
end

section
/-! Proofs for 00_scope.md (R8, R11): what the decoder reads back, what a command's step does, and the
machine's steps as runs of the decoder and the encoder. -/

namespace Sys2Proof

/-- A format I frame is read from one byte after its code (30_encoding.md R66). -/
theorem decodeInfoByte_frame {k : Kind} {mk : Byte → Instr} {w rest : List Byte} {i : Instr}
    (h : decodeInfoByte k mk w = .frame i rest) : ∃ b, i = mk b ∧ w = b :: rest := by
  cases w with
  | nil => cases h
  | cons b w => cases h; exact ⟨b, rfl, rfl⟩

/-- A format F2 frame is read from two bytes after its code (R65). -/
theorem decodeFixedTwo_frame {k : Kind} {mk : Byte → Byte → Instr} {w rest : List Byte} {i : Instr}
    (h : decodeFixedTwo k mk w = .frame i rest) : ∃ d0 d1, i = mk d0 d1 ∧ w = d0 :: d1 :: rest := by
  match w, h with
  | d0 :: d1 :: _, h => cases h; exact ⟨d0, d1, rfl, rfl⟩
  | [], h => cases h
  | [_], h => cases h

/-- A format L frame is read from the two bytes of its payload's length and the payload (R64). -/
theorem decodeLengthDelimited_frame {w rest : List Byte} {i : Instr}
    (h : decodeLengthDelimited w = .frame i rest) :
    ∃ p, p.length ≤ Config.bufCap ∧ i = .message p ∧
      w = (lengthBytes p.length).1 :: (lengthBytes p.length).2 :: (p ++ rest) := by
  match w, h with
  | [], h => cases h
  | [_], h => cases h
  | hi :: lo :: tail, h =>
    by_cases hn : tail.length < (be16 hi lo).toNat
    · simp [decodeLengthDelimited, hn] at h
    · simp only [decodeLengthDelimited, if_neg hn, Decoded.frame.injEq] at h
      obtain ⟨rfl, rfl⟩ := h
      have hlen : (tail.take (be16 hi lo).toNat).length = (be16 hi lo).toNat :=
        List.length_take_of_le (Nat.le_of_not_lt hn)
      refine ⟨_, ?_, rfl, ?_⟩
      · have : (be16 hi lo).toNat < 65536 := (be16 hi lo).isLt
        simp only [hlen, Config.bufCap]; omega
      · rw [hlen, lengthBytes_be16, List.take_append_drop]

/-- A byte that is no response code is an INFOTEXT frame by itself (R62, R106). -/
theorem decode_infotext {b : Byte} (hb : isCode b = false) (w : List Byte) :
    decode (b :: w) = .frame (.infotext b) w := by
  have hk : classify b = .none := by simpa [isCode] using hb
  simp [decode, hk]

/-- What the frame decoder reads is a well-formed inbound instruction, and the bytes it took are that
instruction's encoding. -/
theorem decode_frame {bs rest : List Byte} {i : Instr} (h : decode bs = .frame i rest) :
    i.wf = true ∧ i.inbound = true ∧ ∀ m0 m1, bs = encode m0 m1 i ++ rest := by
  cases bs with
  | nil => cases h
  | cons b w =>
    cases hb : isCode b with
    | false =>
      rw [decode_infotext hb] at h
      cases h
      rw [Machine.isCode_iff_mem] at hb
      exact ⟨by simp only [Instr.wf, hb, Bool.not_false], rfl, fun _ _ => rfl⟩
    | true =>
      rcases Machine.isCode_cases b hb with rfl | rfl | rfl | rfl | rfl | rfl
      · obtain ⟨d0, d1, rfl, rfl⟩ := decodeFixedTwo_frame (k := .version) (mk := .version) h
        exact ⟨rfl, rfl, fun _ _ => rfl⟩
      · obtain ⟨d, rfl, rfl⟩ := decodeInfoByte_frame (k := .ack) (mk := .ack) h
        exact ⟨rfl, rfl, fun _ _ => rfl⟩
      · obtain ⟨d0, d1, rfl, rfl⟩ := decodeFixedTwo_frame (k := .data) (mk := .data) h
        exact ⟨rfl, rfl, fun _ _ => rfl⟩
      · obtain ⟨d, rfl, rfl⟩ := decodeInfoByte_frame (k := .interrupt) (mk := .interrupt) h
        exact ⟨rfl, rfl, fun _ _ => rfl⟩
      · obtain ⟨p, hp, rfl, rfl⟩ := decodeLengthDelimited_frame h
        exact ⟨decide_eq_true hp, rfl, fun _ _ => rfl⟩
      · obtain ⟨d, rfl, rfl⟩ := decodeInfoByte_frame (k := .error) (mk := .error) h
        exact ⟨rfl, rfl, fun _ _ => rfl⟩

/-- Every encoding holds its leading byte. -/
theorem encode_ne_nil (m0 m1 : Byte) (i : Instr) : encode m0 m1 i ≠ [] := by
  cases i <;> exact List.cons_ne_nil _ _

end Sys2Proof

namespace Sys2Proof.Machine

/-- The encoder's bytes one at a time are the stuffed command (42_encoder.md R123, R125). -/
theorem foldl_encByte_tx (c : List Byte) (s : State) :
    (c.foldl encByte s).tx = s.tx ++ stuffAll s.par.mark0 s.par.mark1 c := by
  induction c generalizing s with
  | nil => simp
  | cons b c ih => simp [ih]

/-- ENCODE appends the command's frame to TX and changes nothing else (R120, R122). -/
theorem exec_encode (c : List Byte) (s : State) :
    exec (.encode c) s = .next { s with
      tx := s.tx ++ encode s.par.mark0 s.par.mark1 (.encode c) } := by
  change Host.Outcome.next (c.foldl encByte (encStart s)) = _
  rw [foldl_encByte_frame, foldl_encByte_tx]
  simp [encStart, encode]

/-- A run that begins with a fault is that fault. -/
theorem runSteps_fault {s : State} {f : Fault} (k : Nat) (h : step s = .fault f) :
    runSteps (k + 1) s = .fault f := by
  simp [runSteps, h]

/-- The steps over the waiting commands put their encodings into TX in the order of submission (R127); what
is left to run is left to run from there. -/
theorem runSteps_commands (s : State) (k : Nat) :
    runSteps (s.cmd.length + k) s = runSteps k { s with
      cmd := []
      tx := s.tx ++ (s.cmd.map fun c => encode s.par.mark0 s.par.mark1 (.encode c)).flatten } := by
  generalize hc : s.cmd = cmds
  induction cmds generalizing s with
  | nil => cases s; cases hc; simp
  | cons c cmds ih =>
    have hs := (step_command hc).trans (exec_encode c _)
    rw [List.length_cons, Nat.succ_add, runSteps_next _ hs, ih _ rfl]
    simp

/-- The steps over the bytes of a well-formed inbound instruction are its meaning, from every session: outside
the decoder's domain both stop with the same fault (logs 14, 18). -/
theorem runSteps_encode {s : State} {i : Instr} {rest : List Byte} (hw : i.wf = true)
    (hi : i.inbound = true) (hc : s.cmd = []) (hr : s.rx = encode s.par.mark0 s.par.mark1 i ++ rest) :
    runSteps (encode s.par.mark0 s.par.mark1 i).length s = exec i { s with rx := rest } := by
  rw [exec_inbound hw hi s.par.mark0 s.par.mark1]
  cases hd : s.session.inDomain with
  | true => exact runSteps_bytes _ rest s hd hc hr
  | false =>
    obtain ⟨b, w, hbw⟩ := List.exists_cons_of_ne_nil (encode_ne_nil s.par.mark0 s.par.mark1 i)
    rw [hbw, List.cons_append] at hr
    rw [hbw, List.length_cons, feed_of_not_inDomain _ { s with rx := rest } hd]
    exact runSteps_fault _ ((step_byte hc hr).trans (feed_of_not_inDomain _ _ hd))

/-- Settles O28: the commands' steps come first and touch TX only, the bytes' steps are then one run of the
decoder. -/
theorem stepsRefineTheByteDecoder : Obligations.StepsRefineTheByteDecoder := by
  unfold Obligations.StepsRefineTheByteDecoder
  intro s hd
  rw [runSteps_commands]
  exact (runSteps_bytes s.rx [] { s with cmd := [], tx := _ } hd rfl (List.append_nil _).symm).trans
    (feed_of_inDomain _ _ hd)

/-- Settles O7: the three cases of a step, and the steps over an instruction's bytes, be they told by the
encoder or read by the decoder. -/
theorem stepRunsWhatItFetches : Obligations.StepRunsWhatItFetches := by
  unfold Obligations.StepRunsWhatItFetches
  refine ⟨fun s c cmd hc => step_command hc, ?_, fun s => step_idle, fun s i rest => runSteps_encode, ?_⟩
  · intro s b rest hc hr hd
    exact (step_byte hc hr).trans (feed_one b { s with rx := rest } hd)
  · intro s i rest hc hdec
    obtain ⟨hw, hi, hbytes⟩ := decode_frame hdec
    have hr := hbytes s.par.mark0 s.par.mark1
    have hlen : s.rx.length - rest.length = (encode s.par.mark0 s.par.mark1 i).length := by
      simp [hr]
    rw [hlen, runSteps_encode hw hi hc hr]

end Sys2Proof.Machine
end

section
/-! Proofs for 10_state.md (R32, R33): what one step of the decoder keeps and returns, case by case of the
decode state, and from it the invariant of the whole state. -/

namespace Sys2Proof

/-- The parameters of this hardware are well-formed (00_scope.md R7, R140). -/
theorem Config.params_wf : Config.params.wf := by
  refine ⟨by decide, ?_, ?_⟩
  · show ∀ e ∈ Config.registry, 1 ≤ e.1.length ∧ e.1.length ≤ 255
    decide
  · show (Config.registry.map Prod.fst).Nodup
    decide

end Sys2Proof

namespace Sys2Proof.Machine

section codec
variable {reg : List (List Byte × Variant)} {cause : DecodeCause}

/-- The only factory that fails is the URI's, on an empty payload (43_message_codec_port.md R142). -/
theorem variantDecode_err {v : Variant} {payload : List Byte}
    (h : variantDecode v payload = .err cause) : cause = .malformedRecordPayload := by
  cases v with
  | text => cases h
  | android => cases h
  | uri =>
    cases payload with
    | nil => cases h; rfl
    | cons b rest => cases h

/-- A record is refused for its type name or by its factory (R138, R140). -/
theorem buildRecord_err {name payload : List Byte} (h : buildRecord reg name payload = .err cause) :
    cause = .unknownRecordType name ∨ cause = .malformedRecordPayload := by
  unfold buildRecord at h
  split at h
  · cases h; exact .inl rfl
  · split at h
    · rename_i hv
      cases h
      exact .inr (variantDecode_err hv)
    · cases h

/-- No failure of a record's body has the cause that R165 keeps unused. -/
theorem parseBody_err {typeLen recLen headLen : Nat} {body : List Byte}
    (h : parseBody reg typeLen recLen body headLen = .err cause) : cause ≠ .unexpectedResponseCode := by
  unfold parseBody at h
  split at h
  · cases h; exact nofun
  · dsimp only at h
    split at h
    · cases h; exact nofun
    · split at h
      · rename_i hb
        cases h
        rcases buildRecord_err hb with rfl | rfl <;> exact nofun
      · cases h

/-- No failure of a record has that cause: a truncated head, or the body's own. -/
theorem parseRecord_err {bs : List Byte} (h : parseRecord reg bs = .err cause) :
    cause ≠ .unexpectedResponseCode := by
  unfold parseRecord at h
  split at h
  · split at h
    · exact parseBody_err h
    · split at h
      · exact parseBody_err h
      · cases h; exact nofun
  · cases h; exact nofun

/-- No failure of the loop over the records has that cause. -/
theorem parseLoop_err {fuel : Nat} {bs : List Byte} (h : parseLoop reg fuel bs = .err cause) :
    cause ≠ .unexpectedResponseCode := by
  induction fuel generalizing bs with
  | zero =>
    cases bs with
    | nil => cases h
    | cons b rest => cases h; exact nofun
  | succ fuel ih =>
    cases bs with
    | nil => cases h
    | cons b rest =>
      unfold parseLoop at h
      split at h
      · rename_i hr
        cases h
        exact parseRecord_err hr
      · split at h
        · rename_i hl
          cases h
          exact ih hl
        · cases h

/-- The codec's reply is an event of the block's shape (60_exceptions.md R160, R165). -/
theorem codecReply_sound (p : Params) (raw : List Byte) : (codecReply p raw).sound p := by
  unfold codecReply
  split
  · trivial
  · rename_i h
    exact parseLoop_err h

end codec

section text
variable {p : Params}

/-- What `Filter` returns is printable or the substitute (30_encoding.md R67). -/
theorem filter_printable_or_subst (b : Byte) :
    isPrintable p (filter p b) = true ∨ filter p b = Config.subst := by
  unfold filter
  split
  · exact .inl ‹_›
  · exact .inr rfl

/-- Filtered text stays filtered when a filtered byte is appended (R32 item 5). -/
theorem filtered_append {t : List Byte} (h : ∀ x ∈ t, isPrintable p x = true ∨ x = Config.subst)
    (b : Byte) : ∀ x ∈ t ++ [filter p b], isPrintable p x = true ∨ x = Config.subst := by
  rw [List.forall_mem_append, List.forall_mem_singleton]
  exact ⟨h, filter_printable_or_subst b⟩

theorem infoFull_iff (t : List Byte) : infoFull p t = true ↔ p.infoCap = some t.length := by
  unfold infoFull
  cases p.infoCap with
  | none => simp
  | some cap => simpa using eq_comm

/-- The flush at a frame's opening delivers no empty text (40_decoder_step.md R88). -/
theorem preText_sound {t : List Byte} (h : ∀ x ∈ t, isPrintable p x = true ∨ x = Config.subst) :
    ∀ e ∈ preText t, e.sound p := by
  intro e he
  by_cases ht : t = []
  · simp [preText, ht] at he
  · obtain rfl : e = .informationText t := by simpa [preText, ht] using he
    exact ⟨ht, h⟩

end text

section session
variable {p : Params} {S : Session} {b : Byte}

theorem stateInv_idle (h : S.state = .idle) :
    S.stateInv p ↔ S.buf = [] ∧ S.explen = 0 ∧ S.kind = .none := by
  simp [Session.stateInv, h]

theorem stateInv_length (h : S.state = .awaitingLength) :
    S.stateInv p ↔ S.kind = .message ∧ S.buf.length ≤ 1 ∧ S.info = [] := by
  simp [Session.stateInv, h]

theorem stateInv_data (h : S.state = .awaitingData) : S.stateInv p ↔ S.dataInv p := by
  simp [Session.stateInv, h]

/-- R32 item 3 and R93 on one line: the frame still wants bytes, or it hangs on a zero length. -/
theorem dataInv_iff :
    S.dataInv p ↔
      (S.kind = .message ∨ S.kind = .data ∨ S.kind = .version) ∧ S.info = [] ∧
      (S.kind ≠ .message → S.explen = 2) ∧
      (S.buf.length < S.explen.toNat ∨
        p.zeroLenMode = .hang ∧ S.explen = 0 ∧ S.buf.length ≤ Config.bufCap) := by
  unfold Session.dataInv
  cases p.zeroLenMode <;> simp [or_comm]

/-- An Idle session is sound when it is canonical but for its text (R32 items 1, 5 and 6). -/
theorem inv_of_idle (hs : S.state = .idle) (h : S.buf = [] ∧ S.explen = 0 ∧ S.kind = .none)
    (hinfo : S.infoInv p) : S.Inv p := ⟨(stateInv_idle hs).mpr h, hinfo⟩

/-- A session inside a length frame is sound when it holds at most one length byte (R32 item 2). -/
theorem inv_of_length (hs : S.state = .awaitingLength)
    (h : S.kind = .message ∧ S.buf.length ≤ 1 ∧ S.info = []) (hinfo : S.infoInv p) : S.Inv p :=
  ⟨(stateInv_length hs).mpr h, hinfo⟩

/-- A session inside a payload is sound when its payload is (R32 item 3). -/
theorem inv_of_data (hs : S.state = .awaitingData) (h : S.dataInv p) (hinfo : S.infoInv p) :
    S.Inv p := ⟨(stateInv_data hs).mpr h, hinfo⟩

/-- With no text pending the information buffer is sound, whatever the capacity (R7: not 0). -/
theorem infoInv_of_empty (hp : p.infoCap ≠ some 0) (hi : S.info = []) : S.infoInv p := by
  refine ⟨by simp [hi], fun cap hcap => ?_⟩
  rw [hi]
  exact Nat.pos_of_ne_zero fun h0 => hp (h0 ▸ hcap)

/-- Canonical Idle meets the invariant with the text it keeps (R35). -/
theorem toIdle_inv (h : S.infoInv p) : S.toIdle.Inv p := ⟨⟨rfl, rfl, rfl⟩, h⟩

theorem reset_inv (hp : p.infoCap ≠ some 0) : Session.reset.Inv p :=
  toIdle_inv (S := Session.reset) (infoInv_of_empty hp rfl)

/-- A session that meets the invariant, with events of the block's shape: what every step returns. -/
def SoundResult (p : Params) (r : Session × List Event) : Prop :=
  r.1.Inv p ∧ ∀ e ∈ r.2, e.sound p

theorem soundResult_nil (h : S.Inv p) : SoundResult p (S, []) := ⟨h, by simp⟩

theorem soundResult_singleton {e : Event} (h : S.Inv p) (he : e.sound p) : SoundResult p (S, [e]) :=
  ⟨h, by simpa using he⟩

/-- Each response code opens a frame whose session meets R32 (40_decoder_step.md R82). -/
theorem openFrame_inv (hp : p.infoCap ≠ some 0) (hc : isCode b = true) (hi : S.info = []) :
    (openFrame b S).Inv p := by
  have hinfo := infoInv_of_empty hp hi
  have hfixed : ∀ k, k = .data ∨ k = .version →
      ({ S with kind := k, buf := [], explen := 2, state := .awaitingData } : Session).Inv p :=
    fun k hk => inv_of_data rfl
      (dataInv_iff.mpr ⟨.inr hk, hi, fun _ => rfl, .inl (by decide : 0 < 2)⟩) hinfo
  rcases isCode_cases b hc with rfl | rfl | rfl | rfl | rfl | rfl
  · exact hfixed .version (.inr rfl)
  · exact ⟨⟨.inl rfl, rfl, hi⟩, hinfo⟩
  · exact hfixed .data (.inl rfl)
  · exact ⟨⟨.inr (.inr rfl), rfl, hi⟩, hinfo⟩
  · exact ⟨⟨rfl, Nat.zero_le 1, hi⟩, hinfo⟩
  · exact ⟨⟨.inr (.inl rfl), rfl, hi⟩, hinfo⟩

/-- A text byte: the early flush leaves no text, and without it the capacity is not reached (R87). -/
theorem accumulateInfo_sound (hp : p.infoCap ≠ some 0) (hs : S.state = .idle) (h : S.Inv p) :
    SoundResult p (accumulateInfo p S b) := by
  obtain ⟨hst, hfilt, hcap⟩ := h
  have hidle := (stateInv_idle hs).mp hst
  have htext := filtered_append hfilt b
  rw [accumulateInfo_eq]
  split
  · exact soundResult_singleton (inv_of_idle hs hidle (infoInv_of_empty hp rfl))
      ⟨List.append_ne_nil_of_right_ne_nil _ (List.cons_ne_nil _ _), htext⟩
  · rename_i hfull
    refine soundResult_nil (inv_of_idle hs hidle ⟨htext, fun cap hc => ?_⟩)
    have hlt := hcap cap hc
    have hne : cap ≠ (S.info ++ [filter p b]).length := fun he =>
      hfull ((infoFull_iff _).mpr (he ▸ hc))
    simp only [List.length_append, List.length_singleton] at hne ⊢
    omega

theorem stepIdle_sound (hp : p.infoCap ≠ some 0) (hs : S.state = .idle) (h : S.Inv p) :
    SoundResult p (stepIdle p S b) := by
  have ⟨_, hfilt, _⟩ := h
  cases hc : isCode b with
  | true =>
    rw [stepIdle_code p S b hc]
    exact ⟨openFrame_inv hp hc rfl, preText_sound hfilt⟩
  | false =>
    rw [stepIdle_text p S b hc]
    exact accumulateInfo_sound hp hs h

/-- A completion returns to Idle with the codec's reply or with the two bytes of a DATA or VERSION frame
(R85). -/
theorem complete_sound (hk : S.kind = .message ∨ S.kind = .data ∨ S.kind = .version)
    (hi : S.infoInv p) (hl : S.kind ≠ .message → S.buf.length = 2) :
    SoundResult p (complete p S) := by
  rcases hk with hk | hk | hk
  · rw [complete_message p S hk]
    exact soundResult_singleton (toIdle_inv hi) (codecReply_sound p S.buf)
  · rw [complete_data p S hk]
    exact soundResult_singleton (toIdle_inv hi) (hl (by simp [hk]))
  · rw [complete_version p S hk]
    exact soundResult_singleton (toIdle_inv hi) (hl (by simp [hk]))

theorem stepLength_sound (hs : S.state = .awaitingLength) (h : S.Inv p) :
    SoundResult p (stepLength p S b) := by
  obtain ⟨hst, hinfo⟩ := h
  obtain ⟨hk, -, hi⟩ := (stateInv_length hs).mp hst
  cases hb : S.buf with
  | nil =>
    rw [stepLength_first p S b hb]
    exact soundResult_nil (inv_of_length hs ⟨hk, Nat.le_refl 1, hi⟩ hinfo)
  | cons high t =>
    rw [stepLength_second p S b hb]
    split
    · exact complete_sound (.inl hk) hinfo fun hne => absurd hk hne
    · rename_i hz
      refine soundResult_nil (inv_of_data rfl
        (dataInv_iff.mpr ⟨.inl hk, hi, fun hne => absurd hk hne, ?_⟩) hinfo)
      by_cases h0 : be16 high b = 0
      · have hm : p.zeroLenMode = .hang := by
          cases hm : p.zeroLenMode with
          | hang => rfl
          | immediate => exact absurd ⟨h0, hm⟩ hz
        exact .inr ⟨hm, h0, Nat.zero_le _⟩
      · exact .inl (Nat.pos_of_ne_zero fun hlen => h0 (BitVec.eq_of_toNat_eq hlen))

/-- A byte inside a frame of length 0: in the HANG mode the buffer saturates at its capacity (R93). -/
theorem stepHang_sound (hs : S.state = .awaitingData) (hz : S.explen = 0) (h : S.Inv p) :
    SoundResult p (stepHang S b) := by
  obtain ⟨hst, hinfo⟩ := h
  obtain ⟨hk, hi, he, hlt | ⟨hm, -, hle⟩⟩ := dataInv_iff.mp ((stateInv_data hs).mp hst)
  · simp [hz] at hlt
  · rw [stepHang_eq]
    refine soundResult_nil (inv_of_data hs
      (dataInv_iff.mpr ⟨hk, hi, he, .inr ⟨hm, hz, ?_⟩⟩) hinfo)
    dsimp only
    split
    · simpa using Nat.succ_le_of_lt ‹_›
    · exact hle

theorem stepData_sound (hs : S.state = .awaitingData) (h : S.Inv p) :
    SoundResult p (stepData p S b) := by
  by_cases hz : S.explen = 0
  · rw [stepData_zero p S b hz]
    exact stepHang_sound hs hz h
  · obtain ⟨hst, hinfo⟩ := h
    obtain ⟨hk, hi, he, hlt | ⟨-, h0, -⟩⟩ := dataInv_iff.mp ((stateInv_data hs).mp hst)
    · rw [stepData_nonzero p S b hz]
      split
      · rename_i hlast
        refine complete_sound hk hinfo fun hne => ?_
        rw [he hne] at hlast
        simpa using hlast
      · rename_i hmore
        refine soundResult_nil (inv_of_data hs
          (dataInv_iff.mpr ⟨hk, hi, he, .inl ?_⟩) hinfo)
        simp only [List.length_append, List.length_singleton]
        omega
    · exact absurd h0 hz

/-- The event of a format I frame is of the block's shape (R86). -/
theorem infoByteEvent_sound (k : Kind) : ∀ e ∈ infoByteEvent k b, e.sound p := by
  cases k <;> simp [infoByteEvent, Event.sound]

/-- One byte keeps the session invariant and returns events of the block's shape (R32, R93, R160). -/
theorem decStep_sound (hp : p.infoCap ≠ some 0) (h : S.Inv p) (b : Byte) :
    SoundResult p (decStep p S b) := by
  cases hs : S.state with
  | idle => rw [decStep_idle p S b hs]; exact stepIdle_sound hp hs h
  | awaitingLength => rw [decStep_length p S b hs]; exact stepLength_sound hs h
  | awaitingData => rw [decStep_data p S b hs]; exact stepData_sound hs h
  | awaitingInfoByte =>
    rw [decStep_infoByte p S b hs, stepInfoByte_eq]
    exact ⟨toIdle_inv h.2, infoByteEvent_sound S.kind⟩

/-- So does every run. -/
theorem decRun_sound (hp : p.infoCap ≠ some 0) (h : S.Inv p) (w : List Byte) :
    SoundResult p (decRun p S w) := by
  induction w generalizing S with
  | nil => exact soundResult_nil h
  | cons b w ih =>
    obtain ⟨hinv, hev⟩ := decStep_sound hp h b
    obtain ⟨hinv', hev'⟩ := ih hinv
    exact ⟨hinv', List.forall_mem_append.mpr ⟨hev, hev'⟩⟩

end session

section state
variable {s t : State}

/-- Empty slots are sound. -/
theorem slotsInv_of_empty (hev : s.evPending = none) (hmp : s.mpPending = none)
    (henc : s.encPending = []) : s.slotsInv := by
  simp [State.slotsInv, hev, hmp, henc]

/-- Reset from any state that meets the invariant leads to one (70_reset_and_hazards.md R185). -/
theorem applyReset_inv (h : s.Inv) : s.applyReset.Inv := by
  obtain ⟨hwf, -, hev, -⟩ := h
  exact ⟨hwf, reset_inv hwf.1, hev, slotsInv_of_empty rfl rfl rfl⟩

/-- Bytes through the decoder keep the state invariant. -/
theorem feed_inv {w : List Byte} (h : s.Inv) (ht : feed w s = .next t) : t.Inv := by
  obtain ⟨hwf, hsess, hev, hslots⟩ := h
  obtain ⟨-, rfl⟩ := feed_next ht
  obtain ⟨hinv, hnew⟩ := decRun_sound hwf.1 hsess w
  exact ⟨hwf, hinv, List.forall_mem_append.mpr ⟨hev, hnew⟩, hslots⟩

/-- A step keeps the state invariant: a command writes TX alone, a byte goes through the decoder. -/
theorem step_inv (h : s.Inv) (ht : step s = .next t) : t.Inv := by
  rcases step_cases s with ⟨c, cmd, -, hs⟩ | ⟨b, rx, -, -, hs⟩ | ⟨-, -, hs⟩
  · rw [hs, exec_encode] at ht
    cases ht
    exact h
  · rw [hs] at ht
    exact feed_inv (s := { s with rx := rx }) h ht
  · rw [hs] at ht
    cases ht
    exact h

/-- A host move keeps the state invariant: only the taking of an event and reset touch what it speaks of. -/
theorem afterMove_inv (h : s.Inv) (m : HostMove) : (s.afterMove m).Inv := by
  cases m with
  | push chunk => exact h
  | submit command => exact h
  | drain count => exact h
  | takeEvent =>
    obtain ⟨hwf, hsess, hev, hslots⟩ := h
    exact ⟨hwf, hsess, fun e he => hev e (List.mem_of_mem_drop he), hslots⟩
  | reset => exact applyReset_inv h

end state

/-- Settles O32: a step and a host move each keep the invariant. -/
theorem stepKeepsTheInvariant : Obligations.StepKeepsTheInvariant := by
  unfold Obligations.StepKeepsTheInvariant
  exact ⟨fun _ _ => step_inv, fun _ m h => afterMove_inv h m⟩

/-- Settles O31: the session's part of what one byte keeps. -/
theorem byteStepKeepsTheSessionInvariant : Obligations.ByteStepKeepsTheSessionInvariant := by
  unfold Obligations.ByteStepKeepsTheSessionInvariant
  exact fun _ _ b hp h => (decStep_sound hp h b).1

/-- Settles O30: canonical Idle, empty channels and slots, and well-formed parameters. -/
theorem resetMeetsTheInvariant : Obligations.ResetMeetsTheInvariant := by
  unfold Obligations.ResetMeetsTheInvariant
  exact ⟨Config.params_wf, reset_inv Config.params_wf.1, nofun, slotsInv_of_empty rfl rfl rfl⟩

/-- Settles O37: the reset state is written with these values. -/
theorem resetStateHoldsTheReset : Obligations.ResetStateHoldsTheReset := by
  unfold Obligations.ResetStateHoldsTheReset
  exact ⟨rfl, rfl, rfl, rfl, rfl, rfl, rfl, rfl, rfl⟩

end Sys2Proof.Machine
end

section
/-! Proofs for 20_memory.md (R45, R50 to R53, R55, R58): what each half of a clock edge does, case by case of
its slots, and from it the signal level as a refinement of the byte decoder and of ENCODE. -/

namespace Sys2Proof.Machine

section edge
variable {e : EdgeIn} {s t : State}

/-- Without `rst` an edge is the decoder's half on a state in which the encoder's half wrote TX and the held
bytes only. -/
theorem clockEdge_eq_decoderEdge (hr : e.rst = false) :
    ∃ tx enc, clockEdge e s =
      decoderEdge e { s with tx := tx, encPending := enc, free := s.free + 1 } := by
  have hframe := encoderEdge_frame e { s with free := s.free + 1 }
  have hedge : clockEdge e s = decoderEdge e (encoderEdge e { s with free := s.free + 1 }) := by
    simp [clockEdge, hr]
  exact ⟨_, _, hedge.trans (congrArg (decoderEdge e) hframe)⟩

/-- With no sink ready and no beat offered, the encoder's half leaves the state. -/
theorem encoderEdge_quiet (ht : e.txReady = false) (hc : e.cmdValid = false) : encoderEdge e s = s := by
  unfold encoderEdge
  split <;> simp [ht, hc]

/-- The decoder's half alone moves when the encoder's inputs are quiet. -/
theorem clockEdge_of_encoder_quiet (hr : e.rst = false) (ht : e.txReady = false)
    (hc : e.cmdValid = false) : clockEdge e s = decoderEdge e { s with free := s.free + 1 } := by
  rw [clockEdge, hr, encoderEdge_quiet ht hc]
  rfl

/-- The sink takes the oldest held byte. -/
theorem encoderEdge_drain {b : Byte} {rest : List Byte} (hp : s.encPending = b :: rest)
    (ht : e.txReady = true) :
    encoderEdge e s = { s with encPending := rest, tx := s.tx ++ [b] } := by
  simp [encoderEdge, hp, ht]

/-- With nothing held and no beat offered, a ready sink takes nothing. -/
theorem encoderEdge_empty (hp : s.encPending = []) (hc : e.cmdValid = false) : encoderEdge e s = s := by
  simp [encoderEdge, hp, hc]

/-- A beat with nothing held: `EncStart` or `EncByte` (42_encoder.md R123), held for the sink. -/
theorem encoderEdge_beat (hp : s.encPending = []) (hc : e.cmdValid = true) :
    encoderEdge e s = { s with
      encPending := if e.cmdSof then [s.par.mark0, s.par.mark1]
        else stuff s.par.mark0 s.par.mark1 e.cmdData } := by
  cases hs : e.cmdSof <;> simp [encoderEdge, hp, hc, hs]

/-- A pending event is held until the host accepts it. -/
theorem decoderEdge_event_held {x : PendingEvent} (hx : s.evPending = some x)
    (hr : e.evReady = false) : decoderEdge e s = .next s := by
  simp [decoderEdge, hx, hr]

/-- An accepted event is delivered and frees the slot. -/
theorem decoderEdge_event_accepted {x : PendingEvent} (hx : s.evPending = some x)
    (hr : e.evReady = true) :
    decoderEdge e s = .next { s with evPending := none, ev := s.ev ++ [x.event] } := by
  simp [decoderEdge, hx, hr]

/-- A request is outstanding until the codec answers. -/
theorem decoderEdge_request_waiting {raw : List Byte} (hx : s.evPending = none)
    (hm : s.mpPending = some raw) (ha : e.mpAnswer = false) : decoderEdge e s = .next s := by
  simp [decoderEdge, hx, hm, ha]

/-- The codec's answer is the pending event, with the request's payload as its window. -/
theorem decoderEdge_request_answered {raw : List Byte} (hx : s.evPending = none)
    (hm : s.mpPending = some raw) (ha : e.mpAnswer = true) :
    decoderEdge e s = .next { s with
      mpPending := none, evPending := some { event := codecReply s.par raw, window := raw } } := by
  simp [decoderEdge, hx, hm, ha]

/-- With both slots free and no valid byte the decoder's half leaves the state. -/
theorem decoderEdge_no_byte (hx : s.evPending = none) (hm : s.mpPending = none)
    (hv : e.rxValid = false) : decoderEdge e s = .next s := by
  simp [decoderEdge, hx, hm, hv]

/-- With both slots free a valid byte is taken. -/
theorem decoderEdge_byte (hx : s.evPending = none) (hm : s.mpPending = none)
    (hv : e.rxValid = true) : decoderEdge e s = takeByte e.rxData s := by
  simp [decoderEdge, hx, hm, hv]

/-- With the decoder's inputs quiet its half leaves the state, whatever the slots hold. -/
theorem decoderEdge_quiet (hr : e.evReady = false) (ha : e.mpAnswer = false) (hv : e.rxValid = false) :
    decoderEdge e s = .next s := by
  cases hx : s.evPending with
  | some x => exact decoderEdge_event_held hx hr
  | none =>
    cases hm : s.mpPending with
    | some raw => exact decoderEdge_request_waiting hx hm ha
    | none => exact decoderEdge_no_byte hx hm hv

end edge

section byte
variable {p : Params} {S : Session} {b : Byte}

theorem codecReply_ok {raw : List Byte} {m : List Record} (h : msgParse p.registry raw = .ok m) :
    codecReply p raw = .messageDecoded m := by
  simp [codecReply, h]

theorem codecReply_err {raw : List Byte} {c : DecodeCause} (h : msgParse p.registry raw = .err c) :
    codecReply p raw = .error (.decode c) := by
  simp [codecReply, h]

/-- The codec's reply is one of the codec's two events. -/
theorem codecReply_fromCodec (raw : List Byte) : (codecReply p raw).fromCodec = true := by
  unfold codecReply
  split <;> rfl

/-- Only inside a payload does the completing byte belong to what the codec gets (R83, R84). -/
theorem completedPayload_eq (S : Session) (b : Byte) :
    completedPayload S b = if S.state = .awaitingData then S.buf ++ [b] else [] := by
  cases hs : S.state <;> simp [completedPayload, hs]

/-- What one byte can deliver: nothing, one event of the decoder's own, or the codec's reply on `raw`. -/
def OneEventAtMost (p : Params) (raw : List Byte) (es : List Event) : Prop :=
  es = [] ∨ (∃ x, es = [x] ∧ x.fromCodec = false) ∨ es = [codecReply p raw]

theorem preText_oneEventAtMost (raw t : List Byte) : OneEventAtMost p raw (preText t) := by
  unfold preText
  split
  · exact .inl rfl
  · exact .inr (.inl ⟨_, rfl, rfl⟩)

theorem infoByteEvent_oneEventAtMost (raw : List Byte) (k : Kind) :
    OneEventAtMost p raw (infoByteEvent k b) := by
  cases k with
  | ack | error | interrupt => exact .inr (.inl ⟨_, rfl, rfl⟩)
  | none | version | data | message => exact .inl rfl

/-- A completion delivers the codec's reply on the buffer, or the buffer itself (40_decoder_step.md R85). -/
theorem complete_oneEventAtMost : OneEventAtMost p S.buf (complete p S).2 := by
  cases hk : S.kind with
  | message => exact .inr (.inr (by rw [complete_message p S hk]))
  | data => exact .inr (.inl ⟨_, by rw [complete_data p S hk], rfl⟩)
  | version => exact .inr (.inl ⟨_, by rw [complete_version p S hk], rfl⟩)
  | none | ack | error | interrupt => exact .inl (by simp [complete, hk])

/-- One byte delivers at most one event, and a codec's reply is the one on the payload that the byte completes
(R83, R84, R90). -/
theorem decStep_oneEventAtMost (p : Params) (S : Session) (b : Byte) :
    OneEventAtMost p (completedPayload S b) (decStep p S b).2 := by
  cases hs : S.state with
  | idle =>
    rw [decStep_idle p S b hs]
    cases hc : isCode b with
    | true => rw [stepIdle_code p S b hc]; exact preText_oneEventAtMost _ _
    | false =>
      rw [stepIdle_text p S b hc, accumulateInfo_eq]
      split
      · exact .inr (.inl ⟨_, rfl, rfl⟩)
      · exact .inl rfl
  | awaitingLength =>
    have hraw : completedPayload S b = [] := by simp [completedPayload_eq, hs]
    rw [decStep_length p S b hs, hraw]
    cases hb : S.buf with
    | nil => rw [stepLength_first p S b hb]; exact .inl rfl
    | cons hi t =>
      rw [stepLength_second p S b hb]
      split
      · exact complete_oneEventAtMost
      · exact .inl rfl
  | awaitingData =>
    have hraw : completedPayload S b = S.buf ++ [b] := by simp [completedPayload_eq, hs]
    rw [decStep_data p S b hs, hraw]
    by_cases hz : S.explen = 0
    · rw [stepData_zero p S b hz, stepHang_eq]; exact .inl rfl
    · rw [stepData_nonzero p S b hz]
      split
      · exact complete_oneEventAtMost (S := { S with buf := S.buf ++ [b] })
      · exact .inl rfl
  | awaitingInfoByte =>
    rw [decStep_infoByte p S b hs, stepInfoByte_eq]
    exact infoByteEvent_oneEventAtMost _ _

theorem stateInv_infoByte (h : S.state = .awaitingInfoByte) :
    S.stateInv p ↔ (S.kind = .ack ∨ S.kind = .error ∨ S.kind = .interrupt) ∧ S.buf = [S.kind.code] ∧
      S.info = [] := by
  simp [Session.stateInv, h]

/-- The step is defined for every session that meets the invariant (R80). -/
theorem inDomain_of_inv (h : S.Inv p) : S.inDomain = true := by
  obtain ⟨hst, -⟩ := h
  cases hs : S.state with
  | idle => exact inDomain_of_idle S hs
  | awaitingLength => simpa [Session.inDomain, hs] using ((stateInv_length hs).mp hst).1
  | awaitingData =>
    simpa [Session.inDomain, hs, or_assoc] using (dataInv_iff.mp ((stateInv_data hs).mp hst)).1
  | awaitingInfoByte =>
    obtain ⟨hk, -, -⟩ := (stateInv_infoByte hs).mp hst
    simpa [Session.inDomain, hs, or_assoc] using hk

/-- The payload that a completing byte hands to the codec fits the buffer (R22, R84). -/
theorem completedPayload_fits (h : S.Inv p) (he : (decStep p S b).2 ≠ []) :
    (completedPayload S b).length ≤ Config.bufCap := by
  obtain ⟨hst, -⟩ := h
  cases hs : S.state with
  | idle | awaitingLength | awaitingInfoByte => simp [completedPayload_eq, hs]
  | awaitingData =>
    obtain ⟨-, -, -, hlt | ⟨-, hz, -⟩⟩ := dataInv_iff.mp ((stateInv_data hs).mp hst)
    · have hmax := S.explen.isLt
      simp only [completedPayload_eq, hs, if_true, List.length_append, List.length_singleton, Config.bufCap]
      omega
    · exact absurd (by rw [decStep_data p S b hs, stepData_zero p S b hz, stepHang_eq]) he

end byte

section take
variable {s : State} {b : Byte} {x : Event} (hd : s.session.inDomain = true)
include hd

/-- A byte without an event moves the session only. -/
theorem takeByte_silent (h : (decStep s.par s.session b).2 = []) :
    takeByte b s = .next { s with session := (decStep s.par s.session b).1 } := by
  simp [takeByte, hd, h]

/-- An event of the decoder's own is pending at once (20_memory.md R51). -/
theorem takeByte_own (h : (decStep s.par s.session b).2 = [x])
    (hx : x.fromCodec = false) :
    takeByte b s = .next { s with
      session := (decStep s.par s.session b).1
      evPending := some { event := x, window := x.window [] } } := by
  simp [takeByte, hd, h, hx]

/-- The completion of a MESSAGE is a request to the codec on the payload (R45). -/
theorem takeByte_request (h : (decStep s.par s.session b).2 = [x])
    (hx : x.fromCodec = true) :
    takeByte b s = .next { s with
      session := (decStep s.par s.session b).1
      mpPending := some (completedPayload s.session b) } := by
  simp [takeByte, hd, h, hx]

end take

/-! The slots' invariant (R26, R27). -/

section invariant
variable {p : Params} {s t : State} {e : EdgeIn}

/-- An event of the decoder's own shows its own data (R51). -/
theorem windowInv_of_own {x : Event} (h : x.fromCodec = false) :
    ({ event := x, window := x.window [] } : PendingEvent).windowInv p := by
  cases x with
  | messageDecoded m => cases h
  | error c =>
    cases c with
    | resp b => rfl
    | decode c => cases h
  | informationText _ | connectStateChange | dataReceived _ _ | ack _ | interrupt _ => rfl

/-- The codec's reply shows the payload that it was parsed from (R51). -/
theorem windowInv_codecReply (raw : List Byte) :
    ({ event := codecReply p raw, window := raw } : PendingEvent).windowInv p := by
  cases h : msgParse p.registry raw with
  | ok m => rw [codecReply_ok h]; exact h
  | err c => rw [codecReply_err h]; exact h

/-- A stuffed byte is at most two bytes. -/
theorem stuff_length_le (m0 m1 b : Byte) : (stuff m0 m1 b).length ≤ 2 := by
  unfold stuff
  split <;> simp

/-- The encoder never holds more than two bytes (R27). -/
theorem encoderEdge_encPending_le (h : s.encPending.length ≤ 2) :
    (encoderEdge e s).encPending.length ≤ 2 := by
  cases hp : s.encPending with
  | cons b rest =>
    cases ht : e.txReady with
    | true =>
      rw [encoderEdge_drain hp ht]
      rw [hp, List.length_cons] at h
      exact Nat.le_of_succ_le h
    | false => simpa [encoderEdge, hp, ht] using h
  | nil =>
    cases hc : e.cmdValid with
    | false => rwa [encoderEdge_empty hp hc]
    | true =>
      rw [encoderEdge_beat hp hc]
      dsimp only
      split
      · exact Nat.le_refl 2
      · exact stuff_length_le _ _ _

/-- The encoder's half keeps the invariant: it writes TX and its held bytes only. -/
theorem encoderEdge_inv (h : s.Inv) : (encoderEdge e s).Inv := by
  obtain ⟨hwf, hsess, hev, hslot, hmp, hone, henc⟩ := h
  have henc' := encoderEdge_encPending_le (e := e) henc
  rw [encoderEdge_frame]
  exact ⟨hwf, hsess, hev, hslot, hmp, hone, henc'⟩

/-- An accepted byte keeps the invariant when both slots are free. -/
theorem takeByte_inv {b : Byte} (h : s.Inv) (hx : s.evPending = none) (hm : s.mpPending = none)
    (ht : takeByte b s = .next t) : t.Inv := by
  obtain ⟨hwf, hsess, hev, hslots⟩ := h
  have ⟨hslot, hmp, hone, henc⟩ := hslots
  obtain ⟨hinv, hnew⟩ := decStep_sound hwf.1 hsess b
  obtain ⟨-, ⟨-, rfl⟩ | ⟨x, es, he, ⟨-, rfl⟩ | ⟨hown, rfl⟩⟩⟩ := takeByte_next ht
  · exact ⟨hwf, hinv, hev, hslots⟩
  · have hfit := completedPayload_fits (b := b) hsess (by simp [he])
    exact ⟨hwf, hinv, hev, hslot, by simpa using hfit, .inl hx, henc⟩
  · have hsound : x.sound s.par := hnew x (by simp [he])
    exact ⟨hwf, hinv, hev, by simpa using ⟨hsound, windowInv_of_own hown⟩, hmp, .inr hm, henc⟩

/-- The decoder's half keeps the invariant. -/
theorem decoderEdge_inv (h : s.Inv) (ht : decoderEdge e s = .next t) : t.Inv := by
  have ⟨hwf, hsess, hev, hslot, hmp, hone, henc⟩ := h
  obtain rfl | ⟨x, hx, -, rfl⟩ | ⟨raw, hx, hm, -, rfl⟩ | ⟨hx, hm, -, htake⟩ := decoderEdge_next ht
  · exact h
  · have hsound := (hslot x hx).1
    exact ⟨hwf, hsess, List.forall_mem_append.mpr ⟨hev, by simpa using hsound⟩, nofun, hmp,
      .inl rfl, henc⟩
  · have hreply := And.intro (codecReply_sound s.par raw) (windowInv_codecReply (p := s.par) raw)
    exact ⟨hwf, hsess, hev, by simpa using hreply, nofun, .inr rfl, henc⟩
  · exact takeByte_inv h hx hm htake

/-- A clock edge keeps the invariant: reset meets it, and each half keeps it. -/
theorem clockEdge_inv (h : s.Inv) (ht : clockEdge e s = .next t) : t.Inv := by
  have h0 : ({ s with free := s.free + 1 } : State).Inv := h
  unfold clockEdge at ht
  dsimp only at ht
  split at ht
  · cases ht
    exact applyReset_inv h0
  · exact decoderEdge_inv (encoderEdge_inv h0) ht

end invariant

/-- Settles O33: the encoder's half keeps the bound on the held bytes, the decoder's half the two slots. -/
theorem clockEdgeKeepsTheInvariant : Obligations.ClockEdgeKeepsTheInvariant := by
  unfold Obligations.ClockEdgeKeepsTheInvariant
  exact fun _ _ _ => clockEdge_inv

section run
variable {e : EdgeIn} {s t : State}

/-- A run of edges goes on from the next state of its first edge. -/
theorem clockRun_cons (es : List EdgeIn) (h : clockEdge e s = .next t) :
    clockRun (e :: es) s = clockRun es t := by
  simp [clockRun, h]

/-- Three edges, each with a next state. -/
theorem clockRun_three {e₁ e₂ e₃ : EdgeIn} {s₁ s₂ s₃ : State} (h₁ : clockEdge e₁ s = .next s₁)
    (h₂ : clockEdge e₂ s₁ = .next s₂) (h₃ : clockEdge e₃ s₂ = .next s₃) :
    clockRun [e₁, e₂, e₃] s = .next s₃ := by
  rw [clockRun_cons _ h₁, clockRun_cons _ h₂, clockRun_cons _ h₃]
  rfl

/-- A run of edges goes on from the next state of its first piece. -/
theorem clockRun_append {us : List EdgeIn} (ws : List EdgeIn) (h : clockRun us s = .next t) :
    clockRun (us ++ ws) s = clockRun ws t := by
  induction us generalizing s with
  | nil => cases h; rfl
  | cons e us ih =>
    rw [List.cons_append]
    cases he : clockEdge e s with
    | next u =>
      rw [clockRun_cons us he] at h
      rw [clockRun_cons _ he, ih h]
    | fault f => simp [clockRun, he] at h
    | refused r => simp [clockRun, he] at h

/-- A run that reaches a next state passed its first edge. -/
theorem clockRun_cons_next {es : List EdgeIn} (h : clockRun (e :: es) s = .next t) :
    ∃ u, clockEdge e s = .next u ∧ clockRun es u = .next t := by
  cases he : clockEdge e s with
  | next u => exact ⟨u, rfl, clockRun_cons es he ▸ h⟩
  | fault f => simp [clockRun, he] at h
  | refused r => simp [clockRun, he] at h

end run

section decoderPorts
variable {s : State} (b : Byte)

/-- The edge that offers a byte. -/
def offerEdge (b : Byte) : EdgeIn := { EdgeIn.quiet with rxValid := true, rxData := b }

/-- The edge at which the codec answers. -/
def answerEdge : EdgeIn := { EdgeIn.quiet with mpAnswer := true }

/-- The edge at which the host accepts an event. -/
def acceptEdge : EdgeIn := { EdgeIn.quiet with evReady := true }

/-- The three edges of one byte: it is offered, then the codec may answer, then the host accepts. -/
def byteEdges (b : Byte) : List EdgeIn := [offerEdge b, answerEdge, acceptEdge]

/-- The edge that offers a byte to free slots takes it. -/
theorem clockEdge_offer (hx : s.evPending = none) (hm : s.mpPending = none) :
    clockEdge (offerEdge b) s = takeByte b { s with free := s.free + 1 } :=
  (clockEdge_of_encoder_quiet rfl rfl rfl).trans (decoderEdge_byte hx hm rfl)

/-- The codec's answer is none without a request. -/
theorem clockEdge_answer_no_request (hm : s.mpPending = none) :
    clockEdge answerEdge s = .next { s with free := s.free + 1 } := by
  rw [clockEdge_of_encoder_quiet rfl rfl rfl]
  cases hx : s.evPending with
  | none => exact decoderEdge_no_byte rfl hm rfl
  | some x => exact decoderEdge_event_held rfl rfl

/-- The codec's answer to a request makes its reply the pending event. -/
theorem clockEdge_answer {raw : List Byte} (hx : s.evPending = none) (hm : s.mpPending = some raw) :
    clockEdge answerEdge s = .next { s with
      mpPending := none
      evPending := some { event := codecReply s.par raw, window := raw }
      free := s.free + 1 } :=
  (clockEdge_of_encoder_quiet rfl rfl rfl).trans (decoderEdge_request_answered hx hm rfl)

/-- With both slots free there is nothing to accept. -/
theorem clockEdge_accept_no_event (hx : s.evPending = none) (hm : s.mpPending = none) :
    clockEdge acceptEdge s = .next { s with free := s.free + 1 } :=
  (clockEdge_of_encoder_quiet rfl rfl rfl).trans (decoderEdge_no_byte hx hm rfl)

/-- An accepted event is delivered. -/
theorem clockEdge_accept {x : PendingEvent} (hx : s.evPending = some x) :
    clockEdge acceptEdge s = .next { s with
      evPending := none, ev := s.ev ++ [x.event], free := s.free + 1 } :=
  (clockEdge_of_encoder_quiet rfl rfl rfl).trans (decoderEdge_event_accepted hx rfl)

/-- The three edges of a byte are one `DecStep`, its event delivered and both slots free again (R51). -/
theorem clockRun_byteEdges (hd : s.session.inDomain = true) (hx : s.evPending = none)
    (hm : s.mpPending = none) :
    clockRun (byteEdges b) s = .next { s with
      session := (decStep s.par s.session b).1
      ev := s.ev ++ (decStep s.par s.session b).2
      free := s.free + 3 } := by
  have hoffer := clockEdge_offer b hx hm
  obtain hes | ⟨x, hes, hown⟩ | hes := decStep_oneEventAtMost s.par s.session b
  · rw [takeByte_silent (s := { s with free := s.free + 1 }) hd hes] at hoffer
    rw [byteEdges, clockRun_three hoffer (clockEdge_answer_no_request hm)
      (clockEdge_accept_no_event hx hm), hes, List.append_nil]
  · rw [takeByte_own (s := { s with free := s.free + 1 }) hd hes hown] at hoffer
    rw [byteEdges, clockRun_three hoffer (clockEdge_answer_no_request hm) (clockEdge_accept rfl),
      hes, hx]
  · rw [takeByte_request (s := { s with free := s.free + 1 }) hd hes (codecReply_fromCodec _)] at hoffer
    rw [byteEdges, clockRun_three hoffer (clockEdge_answer hx rfl) (clockEdge_accept rfl), hes, hx, hm]

/-- The edges of a stream are the decoder's run over it. -/
theorem clockRun_streamEdges (w : List Byte) (hd : s.session.inDomain = true)
    (hx : s.evPending = none) (hm : s.mpPending = none) :
    clockRun (w.flatMap byteEdges) s = .next { s with
      session := (decRun s.par s.session w).1
      ev := s.ev ++ (decRun s.par s.session w).2
      free := s.free + 3 * w.length } := by
  induction w generalizing s with
  | nil => simp [clockRun]
  | cons b w ih =>
    rw [List.flatMap_cons, clockRun_append _ (clockRun_byteEdges b hd hx hm), ih]
    · simp [Nat.mul_add, Nat.add_assoc, Nat.add_comm]
    · exact decStep_inDomain _ _ b hd
    · exact hx
    · exact hm

end decoderPorts

/-- Settles O41: byte by byte, the three edges of a byte are one step of the decoder. -/
theorem portsRefineTheByteDecoder : Obligations.PortsRefineTheByteDecoder := by
  unfold Obligations.PortsRefineTheByteDecoder
  exact fun _ w => clockRun_streamEdges w

section encoderPorts
variable {s : State}

/-- The edge that offers a beat. -/
def beatEdge (beat : Bool × Byte) : EdgeIn :=
  { EdgeIn.quiet with cmdValid := true, cmdSof := beat.1, cmdData := beat.2 }

/-- The edge at which the sink is ready. -/
def drainEdge : EdgeIn := { EdgeIn.quiet with txReady := true }

/-- The three edges of one beat: it is offered, then the sink may take two bytes. -/
def beatEdges (beat : Bool × Byte) : List EdgeIn := [beatEdge beat, drainEdge, drainEdge]

/-- The bytes of a beat: the preamble, or the stuffed byte (42_encoder.md R123). -/
def beatBytes (p : Params) (beat : Bool × Byte) : List Byte :=
  if beat.1 then [p.mark0, p.mark1] else stuff p.mark0 p.mark1 beat.2

theorem beatBytes_cases (p : Params) (beat : Bool × Byte) :
    (∃ x, beatBytes p beat = [x]) ∨ ∃ x y, beatBytes p beat = [x, y] := by
  unfold beatBytes stuff
  split
  · exact .inr ⟨_, _, rfl⟩
  · split
    · exact .inr ⟨_, _, rfl⟩
    · exact .inl ⟨_, rfl⟩

/-- The encoder's half alone moves when the decoder's inputs are quiet. -/
theorem clockEdge_of_decoder_quiet {e : EdgeIn} (hr : e.rst = false) (he : e.evReady = false)
    (ha : e.mpAnswer = false) (hv : e.rxValid = false) :
    clockEdge e s = .next (encoderEdge e { s with free := s.free + 1 }) := by
  rw [clockEdge, hr]
  exact decoderEdge_quiet he ha hv

/-- A beat offered with nothing held is held as its bytes. -/
theorem clockEdge_beat (beat : Bool × Byte) (hp : s.encPending = []) :
    clockEdge (beatEdge beat) s =
      .next { s with encPending := beatBytes s.par beat, free := s.free + 1 } := by
  rw [clockEdge_of_decoder_quiet rfl rfl rfl rfl]
  exact congrArg _ (encoderEdge_beat hp rfl)

/-- The sink takes the oldest held byte. -/
theorem clockEdge_drain {x : Byte} {rest : List Byte} (hp : s.encPending = x :: rest) :
    clockEdge drainEdge s =
      .next { s with encPending := rest, tx := s.tx ++ [x], free := s.free + 1 } := by
  rw [clockEdge_of_decoder_quiet rfl rfl rfl rfl]
  exact congrArg _ (encoderEdge_drain hp rfl)

/-- With nothing held the sink takes nothing. -/
theorem clockEdge_drain_empty (hp : s.encPending = []) :
    clockEdge drainEdge s = .next { s with free := s.free + 1 } := by
  rw [clockEdge_of_decoder_quiet rfl rfl rfl rfl]
  exact congrArg _ (encoderEdge_empty hp rfl)

/-- The three edges of a beat put its bytes in TX and hold nothing (R52). -/
theorem clockRun_beatEdges (beat : Bool × Byte) (hp : s.encPending = []) :
    clockRun (beatEdges beat) s =
      .next { s with tx := s.tx ++ beatBytes s.par beat, free := s.free + 3 } := by
  have hbeat := clockEdge_beat beat hp
  obtain ⟨x, hb⟩ | ⟨x, y, hb⟩ := beatBytes_cases s.par beat
  · rw [hb] at hbeat
    rw [beatEdges, clockRun_three hbeat (clockEdge_drain rfl) (clockEdge_drain_empty rfl), hb, hp]
  · rw [hb] at hbeat
    rw [beatEdges, clockRun_three hbeat (clockEdge_drain rfl) (clockEdge_drain rfl), hb, hp,
      List.append_assoc, List.singleton_append]

/-- The edges of a sequence of beats put their bytes in TX in order. -/
theorem clockRun_beats (beats : List (Bool × Byte)) (hp : s.encPending = []) :
    clockRun (beats.flatMap beatEdges) s = .next { s with
      tx := s.tx ++ beats.flatMap (beatBytes s.par), free := s.free + 3 * beats.length } := by
  induction beats generalizing s with
  | nil => simp [clockRun]
  | cons beat beats ih =>
    rw [List.flatMap_cons, clockRun_append _ (clockRun_beatEdges beat hp), ih]
    · simp [Nat.mul_add, Nat.add_assoc, Nat.add_comm]
    · exact hp

/-- A start-of-frame beat and one data beat for each command byte have the bytes of the encoding (R120, R123). -/
theorem beatBytes_command (p : Params) (c : List Byte) :
    ((true, 0) :: c.map fun b => (false, b)).flatMap (beatBytes p) =
      encode p.mark0 p.mark1 (.encode c) := by
  simp [beatBytes, encode, stuffAll, List.flatMap_map]

end encoderPorts

/-- Settles O42: beat by beat, the three edges of a beat are `EncStart` or `EncByte`. -/
theorem beatsEncodeTheCommand : Obligations.BeatsEncodeTheCommand := by
  unfold Obligations.BeatsEncodeTheCommand
  intro s c hp
  have h := clockRun_beats ((true, 0) :: c.map fun b => (false, b)) hp
  rw [beatBytes_command, List.length_cons, List.length_map] at h
  exact h

/-- The decoder over the next chunk, from a session and the events so far (R58). -/
def decChunk (p : Params) (r : Session × List Event) (c : List Byte) : Session × List Event :=
  ((decRun p r.1 c).1, r.2 ++ (decRun p r.1 c).2)

/-- Chunk by chunk, the decoder ends where the run over their concatenation ends, with its events after the
events so far. -/
theorem foldl_decChunk (p : Params) (chunks : List (List Byte)) (r : Session × List Event) :
    chunks.foldl (decChunk p) r = decChunk p r chunks.flatten := by
  induction chunks generalizing r with
  | nil => simp only [decChunk, List.foldl_nil, List.flatten_nil, decRun_nil, List.append_nil]
  | cons c chunks ih =>
    simp only [List.foldl_cons, ih, List.flatten_cons, decChunk, decRun_append, List.append_assoc]

/-- Settles O12: from no events so far, the chunks' events are those of the one run. -/
theorem chunkingIsInvisible : Obligations.ChunkingIsInvisible := by
  unfold Obligations.ChunkingIsInvisible
  exact ⟨fun p S chunks => (foldl_decChunk p chunks (S, [])).symm, decRun_nil⟩

/-- Settles O27: an inbound instruction writes the session and EV, and ENCODE writes TX. -/
theorem decoderAndEncoderCommute : Obligations.DecoderAndEncoderCommute := by
  unfold Obligations.DecoderAndEncoderCommute
  intro i c s t u hi ht hu
  rw [exec_encode] at hu
  cases hu
  obtain ⟨hw, -, hfeed⟩ | ⟨c', rfl, -⟩ := exec_next ht
  · obtain ⟨hd, rfl⟩ := feed_next (hfeed s.par.mark0 s.par.mark1)
    refine ⟨_, exec_encode c _, ?_⟩
    rw [exec_inbound hw hi s.par.mark0 s.par.mark1]
    exact feed_of_inDomain _ _ hd
  · cases hi

section stall
variable {e : EdgeIn} {s t : State}

/-- How many edges the host still needs to free the slots: one to accept an event, one more before it when
the codec has yet to answer (log 23). -/
def State.hostEdgesLeft (s : State) : Nat :=
  (if s.evPending.isSome then 1 else 0) + if s.mpPending.isSome then 2 else 0

/-- At most one of the two slots is taken, so two edges are enough. -/
theorem hostEdgesLeft_le_two (h : s.evPending = none ∨ s.mpPending = none) : s.hostEdgesLeft ≤ 2 := by
  obtain h | h := h
  · cases hm : s.mpPending <;> simp [State.hostEdgesLeft, h, hm]
  · cases hx : s.evPending <;> simp [State.hostEdgesLeft, h, hx]

/-- The decoder takes bytes when the host owes it no edge. -/
theorem rxReady_of_hostEdgesLeft (h : s.hostEdgesLeft = 0) : s.rxReady = true := by
  simpa [State.hostEdgesLeft, State.rxReady] using h

/-- The edge at which the codec answers, the host accepts and the sink takes a byte. -/
def hostEdge : EdgeIn := { EdgeIn.quiet with mpAnswer := true, evReady := true, txReady := true }

/-- Such an edge moves the decoder one edge nearer to a free slot; session and held bytes stay. -/
theorem decoderEdge_hostEdge (h : decoderEdge hostEdge s = .next t) :
    t.session = s.session ∧ t.encPending = s.encPending ∧ t.hostEdgesLeft = s.hostEdgesLeft - 1 := by
  cases hx : s.evPending with
  | some x =>
    rw [decoderEdge_event_accepted hx rfl] at h
    cases h
    exact ⟨rfl, rfl, by simp [State.hostEdgesLeft, hx]⟩
  | none =>
    cases hm : s.mpPending with
    | some raw =>
      rw [decoderEdge_request_answered hx hm rfl] at h
      cases h
      exact ⟨rfl, rfl, by simp [State.hostEdgesLeft, hx, hm]⟩
    | none =>
      rw [decoderEdge_no_byte hx hm rfl] at h
      cases h
      exact ⟨rfl, rfl, by simp [State.hostEdgesLeft, hx, hm]⟩

/-- At such an edge the sink takes one held byte, if there is one. -/
theorem encoderEdge_hostEdge : (encoderEdge hostEdge s).encPending = s.encPending.tail := by
  cases hp : s.encPending with
  | cons b rest => rw [encoderEdge_drain hp rfl]; rfl
  | nil => rw [encoderEdge_empty hp rfl, hp]; rfl

theorem clockEdge_hostEdge (h : clockEdge hostEdge s = .next t) :
    t.session = s.session ∧ t.encPending = s.encPending.tail ∧
      t.hostEdgesLeft = s.hostEdgesLeft - 1 := by
  obtain ⟨hsess, henc, hleft⟩ := decoderEdge_hostEdge h
  rw [encoderEdge_hostEdge] at henc
  rw [encoderEdge_frame] at hsess hleft
  exact ⟨hsess, henc, hleft⟩

end stall

/-- Settles O43: each of the two edges brings both halves one edge nearer to ready, and neither needs more. -/
theorem blockStallsOnlyOnTheHost : Obligations.BlockStallsOnlyOnTheHost := by
  unfold Obligations.BlockStallsOnlyOnTheHost
  intro s t h hrun
  obtain ⟨-, -, -, -, -, hone, henc⟩ := h
  have hleft := hostEdgesLeft_le_two hone
  obtain ⟨u, hu, hrest⟩ := clockRun_cons_next hrun
  obtain ⟨v, hv, hnil⟩ := clockRun_cons_next hrest
  cases hnil
  obtain ⟨hsess₁, henc₁, hleft₁⟩ := clockEdge_hostEdge hu
  obtain ⟨hsess₂, henc₂, hleft₂⟩ := clockEdge_hostEdge hv
  refine ⟨rxReady_of_hostEdgesLeft (by omega), ?_, hsess₂.trans hsess₁⟩
  have hlen : t.encPending.length = 0 := by
    rw [henc₂, henc₁, List.length_tail, List.length_tail]
    omega
  rw [State.cmdReady, List.length_eq_zero_iff.mp hlen]
  rfl

/-- Settles O53: the two slots and the valid byte tell which case of the decoder's half it is, and the one event
of a byte tells where it waits. -/
theorem edgeTakesOneByteWhenReady : Obligations.EdgeTakesOneByteWhenReady := by
  unfold Obligations.EdgeTakesOneByteWhenReady
  intro e s h hr hx
  obtain ⟨-, hsess, -⟩ := h
  have hd := inDomain_of_inv hsess
  obtain ⟨tx, enc, hedge⟩ := clockEdge_eq_decoderEdge (s := s) hr
  rw [hedge]
  cases hm : s.mpPending with
  | some raw =>
    cases ha : e.mpAnswer with
    | false =>
      refine ⟨_, decoderEdge_request_waiting hx rfl ha, rfl, ?_, nofun, nofun⟩
      rintro _ ⟨⟩
      exact ⟨rfl, fun _ => ⟨rfl, hx⟩, nofun⟩
    | true =>
      refine ⟨_, decoderEdge_request_answered hx rfl ha, rfl, ?_, nofun, nofun⟩
      rintro _ ⟨⟩
      exact ⟨rfl, nofun, fun _ => ⟨rfl, fun m hp => by rw [codecReply_ok hp],
        fun c hp => by rw [codecReply_err hp]⟩⟩
  | none =>
    cases hv : e.rxValid with
    | false => exact ⟨_, decoderEdge_no_byte hx rfl hv, rfl, nofun, fun _ _ => ⟨rfl, rfl, hx⟩, nofun⟩
    | true =>
      obtain hes | ⟨x, hes, hown⟩ | hes := decStep_oneEventAtMost s.par s.session e.rxData
      · refine ⟨_, Eq.trans (decoderEdge_byte hx rfl hv) (takeByte_silent hd hes), rfl, nofun,
          nofun, fun _ _ => ⟨rfl, ?_⟩⟩
        rw [hes]
        exact ⟨rfl, hx⟩
      · refine ⟨_, Eq.trans (decoderEdge_byte hx rfl hv) (takeByte_own hd hes hown), rfl, nofun,
          nofun, fun _ _ => ⟨rfl, ?_⟩⟩
        rw [hes]
        cases x with
        | messageDecoded m => cases hown
        | error c =>
          cases c with
          | resp b => exact ⟨rfl, rfl⟩
          | decode c => cases hown
        | informationText _ | connectStateChange | dataReceived _ _ | ack _ | interrupt _ =>
          exact ⟨rfl, rfl⟩
      · refine ⟨_, Eq.trans (decoderEdge_byte hx rfl hv)
          (takeByte_request hd hes (codecReply_fromCodec _)), rfl, nofun, nofun,
          fun _ _ => ⟨rfl, ?_⟩⟩
        have hraw := congrArg some (completedPayload_eq s.session e.rxData)
        rw [hes]
        cases hp : msgParse s.par.registry (completedPayload s.session e.rxData) with
        | ok m => rw [codecReply_ok hp]; exact ⟨hx, hraw⟩
        | err c => rw [codecReply_err hp]; exact ⟨hx, hraw⟩

/-- Settles O39: the decoder's half sees the event first, and the encoder's half does not touch it. -/
theorem pendingEventHoldsBackBytes : Obligations.PendingEventHoldsBackBytes := by
  unfold Obligations.PendingEventHoldsBackBytes
  intro e s x hx hr
  have hready : s.rxReady = false := by simp [State.rxReady, hx]
  obtain ⟨tx, enc, hedge⟩ := clockEdge_eq_decoderEdge (s := s) hr
  rw [hedge]
  refine ⟨hready, ?_⟩
  cases he : e.evReady with
  | false => exact ⟨_, decoderEdge_event_held hx he, rfl, rfl, fun _ => ⟨hx, rfl⟩, nofun⟩
  | true => exact ⟨_, decoderEdge_event_accepted hx he, rfl, rfl, nofun, fun _ => ⟨rfl, rfl⟩⟩

section ports
variable {s : State} {e : EdgeIn} {x : PendingEvent}

/-- The event ports while an event is pending, and `rx_ready` (R51). -/
theorem outputs_pending (hx : s.evPending = some x) :
    (s.outputs e).evValid = true ∧ (s.outputs e).rxReady = false ∧
      (s.outputs e).evLen = windowLength s.free x.window ∧
      (s.outputs e).evRdata = windowByte s.free x.window e.evRaddr ∧
      ((s.outputs e).evKind, (s.outputs e).evCode, (s.outputs e).evSrc) =
        (x.event.tag, x.event.portCode, x.event.portSrc) := by
  simp [State.outputs, pendingEventPorts, State.rxReady, hx]

/-- The event ports with no event pending, and `rx_ready` (R51). -/
theorem outputs_not_pending (hx : s.evPending = none) :
    (s.outputs e).evValid = false ∧ (s.outputs e).evCode = 0 ∧ (s.outputs e).evSrc = false ∧
      (s.outputs e).rxReady = s.mpPending.isNone := by
  simp [State.outputs, idleEventPorts, State.rxReady, hx]

/-- `ev_len` carries the length of every window that fits it. -/
theorem windowLength_toNat {w : List Byte} (n : Nat) (h : w.length < 65536) :
    (windowLength n w).toNat = w.length := by
  rw [windowLength, if_pos h, BitVec.toNat_ofNat, Nat.mod_eq_of_lt h]

/-- `ev_rdata` is the addressed byte of a window that fits. -/
theorem windowByte_eq {w : List Byte} (n : Nat) {addr : BitVec 16} (h : w.length < 65536)
    (ha : addr.toNat < w.length) : windowByte n w addr = w[addr.toNat] := by
  have hlt : addr < windowLength n w := by rwa [BitVec.lt_def, windowLength_toNat n h]
  rw [windowByte, if_pos hlt, List.getD_eq_getElem?_getD, List.getElem?_eq_getElem ha, Option.getD_some]

end ports

/-- Settles O40: the event and its window are those of the slot's invariant; the codes are the
event's. -/
theorem portsShowThePendingEvent : Obligations.PortsShowThePendingEvent := by
  unfold Obligations.PortsShowThePendingEvent
  refine ⟨fun s x e h hx => ?_, fun s e => outputs_not_pending⟩
  obtain ⟨-, -, -, hslot, -⟩ := h
  obtain ⟨hsound, hwin⟩ := hslot x hx
  obtain ⟨hvalid, hready, hlen, hdata, hports⟩ := outputs_pending (e := e) hx
  refine ⟨hvalid, hready, fun hl => ⟨?_, fun ha => ?_⟩, ?_⟩
  · rw [hlen, windowLength_toNat _ hl]
  · rw [hdata, windowByte_eq _ hl ha]
  · obtain ⟨event, window⟩ := x
    cases event with
    | connectStateChange => exact hsound
    | dataReceived k d =>
      cases k with
      | data | version => exact ⟨hports, hwin, hsound⟩
    | error c =>
      cases c with
      | resp b => exact ⟨hports, hwin⟩
      | decode c =>
        cases c with
        | unexpectedResponseCode => exact hsound rfl
        | truncatedStream _ _ | unknownRecordType _ | malformedRecordPayload => exact ⟨hports, hwin⟩
    | informationText _ | messageDecoded _ | ack _ | interrupt _ => exact ⟨hports, hwin⟩

end Sys2Proof.Machine
end

section
/-! Proofs for 30_encoding.md (R60 to R72) with 00_scope.md R7: the classifier and the response codes, the two
round trips of the frame decoder, which bytes complete a frame, payload bytes, and the filter's parameter. -/

namespace Sys2Proof

/-- A response code is the register code of its own class (R62, 10_state.md R24). -/
theorem code_classify {b : Byte} (h : isCode b = true) : (classify b).code = b := by
  rcases Machine.isCode_cases b h with rfl | rfl | rfl | rfl | rfl | rfl <;> rfl

/-- The class is `NONE` exactly outside the response codes (R63). -/
theorem classify_eq_none_iff {b : Byte} : classify b = .none ↔ b ∉ Config.responseCodes := by
  have hcode : isCode b = true ↔ b ∈ Config.responseCodes := by
    rw [Machine.isCode_iff_mem, List.contains_iff_mem]
  rw [← hcode, isCode, bne_iff_ne, Decidable.not_not]

/-- Every kind but `NONE` is the class of its response code and of no other byte (R62, R63). -/
theorem classify_eq_iff {b : Byte} {k : Kind} (hk : k ≠ .none) : classify b = k ↔ b = k.code := by
  constructor
  · rintro rfl
    exact (code_classify (bne_iff_ne.mpr hk)).symm
  · rintro rfl
    cases k with
    | none => exact absurd rfl hk
    | version | ack | data | interrupt | message | error => rfl

/-- A length field and at least its payload are read as a MESSAGE of that payload (R64). -/
theorem decodeLengthDelimited_lengthBytes {p : List Byte} (hp : p.length ≤ Config.bufCap)
    (rest : List Byte) :
    decodeLengthDelimited ((lengthBytes p.length).1 :: (lengthBytes p.length).2 :: (p ++ rest)) =
      .frame (.message p) rest := by
  simp [decodeLengthDelimited, be16_lengthBytes p.length hp]

/-- The encoding of a well-formed inbound instruction is read back, whatever follows it. -/
theorem decode_encode (m0 m1 : Byte) {i : Instr} (rest : List Byte) (hw : i.wf = true)
    (hi : i.inbound = true) : decode (encode m0 m1 i ++ rest) = .frame i rest := by
  cases i with
  | version _ _ | ack _ | data _ _ | interrupt _ | error _ => rfl
  | message p => exact decodeLengthDelimited_lengthBytes (of_decide_eq_true hw) rest
  | infotext b =>
    refine decode_infotext ?_ rest
    rw [Machine.isCode_iff_mem]
    exact (Bool.not_eq_true' _).mp hw
  | encode c => cases hi

/-- Settles O3: `decode_encode`. -/
theorem decodeInvertsEncode : Obligations.DecodeInvertsEncode := by
  unfold Obligations.DecodeInvertsEncode
  exact fun m0 m1 i rest hw hi => decode_encode m0 m1 rest hw hi

/-- Settles O4: `decode_frame`, for one pair of markers. -/
theorem encodeInvertsDecode : Obligations.EncodeInvertsDecode := by
  unfold Obligations.EncodeInvertsDecode
  intro m0 m1 bs rest i h
  obtain ⟨hw, hi, hbytes⟩ := decode_frame h
  exact ⟨hw, hi, hbytes m0 m1⟩

/-- One byte after its code completes a format I frame (R66). -/
theorem decodeInfoByte_complete (k : Kind) (mk : Byte → Instr) {w : List Byte} (h : 1 ≤ w.length) :
    ∃ i rest, decodeInfoByte k mk w = .frame i rest := by
  match w, h with
  | b :: rest, _ => exact ⟨mk b, rest, rfl⟩

/-- Two bytes after its code complete a format F2 frame (R65). -/
theorem decodeFixedTwo_complete (k : Kind) (mk : Byte → Byte → Instr) {w : List Byte}
    (h : 2 ≤ w.length) : ∃ i rest, decodeFixedTwo k mk w = .frame i rest := by
  match w, h with
  | d0 :: d1 :: rest, _ => exact ⟨mk d0 d1, rest, rfl⟩

/-- A length field and as many bytes as it says complete a format L frame (R64). -/
theorem decodeLengthDelimited_complete {w : List Byte}
    (h : 2 + (be16 (w.getD 0 0) (w.getD 1 0)).toNat ≤ w.length) :
    ∃ i rest, decodeLengthDelimited w = .frame i rest := by
  match w, h with
  | hi :: lo :: tail, h =>
    have hn : ¬ tail.length < (be16 hi lo).toNat := by
      simp only [List.getD_cons_zero, List.getD_cons_succ, List.length_cons] at h
      omega
    exact ⟨_, _, if_neg hn⟩
  | [_], h | [], h => simp only [List.length_cons, List.length_nil] at h; omega

/-- A leading byte with as many bytes after it as R69 says begins a frame. -/
theorem decode_complete {b : Byte} {w : List Byte} (h : bytesAfterLeading (b :: w) ≤ w.length) :
    ∃ i rest, decode (b :: w) = .frame i rest := by
  cases hb : isCode b with
  | false => exact ⟨_, _, decode_infotext hb w⟩
  | true =>
    rcases Machine.isCode_cases b hb with rfl | rfl | rfl | rfl | rfl | rfl
    · exact decodeFixedTwo_complete .version .version h
    · exact decodeInfoByte_complete .ack .ack h
    · exact decodeFixedTwo_complete .data .data h
    · exact decodeInfoByte_complete .interrupt .interrupt h
    · exact decodeLengthDelimited_complete h
    · exact decodeInfoByte_complete .error .error h

/-- The longest frame is a MESSAGE of 65535 payload bytes (R64, R69). -/
theorem bytesAfterLeading_le (bs : List Byte) : bytesAfterLeading bs ≤ 65537 := by
  cases bs with
  | nil => exact Nat.zero_le _
  | cons b w =>
    have := (be16 (w.getD 0 0) (w.getD 1 0)).isLt
    simp only [bytesAfterLeading]
    split <;> omega

/-- Settles O5: enough bytes for the longest frame complete the one that the leading byte opens. -/
theorem noLeadingByteIsIllegal : Obligations.NoLeadingByteIsIllegal := by
  unfold Obligations.NoLeadingByteIsIllegal
  intro b bs
  refine ⟨List.replicate 65537 0, ?_⟩
  rw [List.cons_append]
  refine decode_complete (Nat.le_trans (bytesAfterLeading_le _) ?_)
  rw [List.length_append, List.length_replicate]
  exact Nat.le_add_left _ _

/-- Settles O1: the decoder evaluated on the eight words. -/
theorem tableWordsDecodeToTheirRows : Obligations.TableWordsDecodeToTheirRows := by
  unfold Obligations.TableWordsDecodeToTheirRows
  exact ⟨rfl, rfl, rfl, rfl, rfl, rfl, rfl, rfl⟩

/-- Settles O2: `classify_eq_iff` for each of the six kinds, `classify_eq_none_iff` for the other bytes. -/
theorem classifierSeparatesSixCodes : Obligations.ClassifierSeparatesSixCodes := by
  unfold Obligations.ClassifierSeparatesSixCodes
  intro b
  refine ⟨classify_eq_iff (k := .version) nofun, classify_eq_iff (k := .ack) nofun,
    classify_eq_iff (k := .data) nofun, classify_eq_iff (k := .interrupt) nofun,
    classify_eq_iff (k := .message) nofun, classify_eq_iff (k := .error) nofun,
    classify_eq_none_iff, bne_iff_ne, ?_⟩
  cases hb : isCode b with
  | true => exact code_classify hb
  | false =>
    have hk : classify b = .none := by simpa [isCode] using hb
    rw [hk]; rfl

end Sys2Proof

namespace Sys2Proof.Machine

/-- Bytes that do not fill the payload are appended to the buffer, whatever they are (R72, 40_decoder_step.md
R84). -/
theorem decRun_data_unfilled (p : Params) {S : Session} {w : List Byte} (hs : S.state = .awaitingData)
    (hl : S.buf.length + w.length < S.explen.toNat) :
    decRun p S w = ({ S with buf := S.buf ++ w }, []) := by
  induction w generalizing S with
  | nil => simp
  | cons b w ih =>
    rw [List.length_cons] at hl
    have hz : S.explen ≠ 0 := by
      intro h
      simp [h] at hl
    have hstep : decStep p S b = ({ S with buf := S.buf ++ [b] }, []) := by
      rw [decStep_data p S b hs, stepData_nonzero p S b hz, if_neg (by omega)]
    have hl' : (S.buf ++ [b]).length + w.length < S.explen.toNat := by
      rw [List.length_append, List.length_singleton]; omega
    simp [hstep, ih (S := { S with buf := S.buf ++ [b] }) hs hl']

/-- In AwaitingData the domain is the three kinds that carry a payload (log 18). -/
theorem inDomain_data {S : Session} (hs : S.state = .awaitingData) :
    S.inDomain = true ↔ S.kind = .message ∨ S.kind = .data ∨ S.kind = .version := by
  simp [Session.inDomain, hs, or_assoc]

/-- Settles O14: the instruction is its bytes, and they do not fill the payload. -/
theorem instructionBytesInsideAPayloadAreData : Obligations.InstructionBytesInsideAPayloadAreData := by
  unfold Obligations.InstructionBytesInsideAPayloadAreData
  intro s i hw hi hs hk hl
  rw [exec_inbound hw hi s.par.mark0 s.par.mark1, feed_of_inDomain _ s ((inDomain_data hs).mpr hk),
    decRun_data_unfilled s.par hs hl, List.append_nil]

/-- The ranges of one byte each that describe a predicate on bytes (log 2). -/
def singletonRanges (f : Byte → Bool) : List (Byte × Byte) :=
  ((List.finRange 256).map BitVec.ofFin).filter f |>.map fun b => (b, b)

theorem mem_singletonRanges {f : Byte → Bool} {r : Byte × Byte} :
    r ∈ singletonRanges f ↔ ∃ b, f b = true ∧ (b, b) = r := by
  have hall (b : Byte) : b ∈ (List.finRange 256).map BitVec.ofFin :=
    List.mem_map.mpr ⟨b.toFin, List.mem_finRange _, rfl⟩
  simp only [singletonRanges, List.mem_map, List.mem_filter, hall, true_and]

theorem isPrintable_iff {p : Params} {b : Byte} :
    isPrintable p b = true ↔ ∃ r ∈ p.printable, r.1 ≤ b ∧ b ≤ r.2 := by
  simp [isPrintable]

/-- Every predicate on bytes is `IsPrintable` for its ranges of one byte (R7, log 2). -/
theorem isPrintable_singletonRanges {p : Params} {f : Byte → Bool} (h : p.printable = singletonRanges f)
    (b : Byte) : isPrintable p b = f b := by
  rw [Bool.eq_iff_iff, isPrintable_iff, h]
  constructor
  · rintro ⟨r, hr, hlo, hhi⟩
    obtain ⟨c, hc, rfl⟩ := mem_singletonRanges.mp hr
    rwa [BitVec.le_antisymm hhi hlo]
  · intro hb
    exact ⟨(b, b), mem_singletonRanges.mpr ⟨b, hb, rfl⟩, BitVec.le_refl b, BitVec.le_refl b⟩

/-- Settles O20: the filter's definition, the default range, and `isPrintable_singletonRanges`. -/
theorem filterReplacesUnprintableBytes : Obligations.FilterReplacesUnprintableBytes := by
  unfold Obligations.FilterReplacesUnprintableBytes
  refine ⟨fun p b => rfl, fun b => ?_,
    fun f => ⟨singletonRanges f, fun p b h => isPrintable_singletonRanges h b⟩⟩
  simp [isPrintable_iff, Config.params, BitVec.le_def]

/-- Settles O26: `exec_of_not_wf`, and the instruction's bytes fed to a session outside the domain. -/
theorem stopsAreNamed : Obligations.StopsAreNamed := by
  unfold Obligations.StopsAreNamed
  refine ⟨fun i s hw => exec_of_not_wf hw s, fun i s hw hi hd => ?_⟩
  rw [exec_inbound hw hi s.par.mark0 s.par.mark1, feed_of_not_inDomain _ s hd]

end Sys2Proof.Machine
end

section
/-! Proofs for 40_decoder_step.md (R80 to R93): the transitions row by row, the HANG reading of a zero length,
and that no step and no clock edge stops. -/

namespace Sys2Proof.Machine

section rows
variable {p : Params} {S : Session} {b : Byte}

/-- In Idle a response code delivers the pending text and opens its frame (R82, R88). -/
theorem decStep_idle_code (hs : S.state = .idle) (hc : isCode b = true) :
    decStep p S b = (openFrame b { S with info := [] }, preText S.info) := by
  rw [decStep_idle p S b hs, stepIdle_code p S b hc]

/-- In Idle any other byte is text: the filtered byte is appended, or the text it fills up is delivered
(R87). -/
theorem decStep_idle_text (hs : S.state = .idle) (hb : b ∉ Config.responseCodes) :
    decStep p S b =
      if p.infoCap = some (S.info.length + 1) then
        ({ S with info := [] }, [.informationText (S.info ++ [filter p b])])
      else ({ S with info := S.info ++ [filter p b] }, []) := by
  have hc : isCode b = false := by simpa [isCode_iff_mem] using hb
  rw [decStep_idle p S b hs, stepIdle_text p S b hc, accumulateInfo_eq]
  simp only [infoFull_iff, List.length_append, List.length_singleton]

/-- The first length byte is kept (R83). -/
theorem decStep_length_first (hs : S.state = .awaitingLength) (hb : S.buf = []) :
    decStep p S b = ({ S with buf := [b] }, []) := by
  rw [decStep_length p S b hs, stepLength_first p S b hb]

/-- The second length byte opens the payload, if one is expected or the HANG mode expects one all the same
(R83). -/
theorem decStep_length_opens {hi : Byte} (hs : S.state = .awaitingLength) (hb : S.buf = [hi])
    (h : be16 hi b ≠ 0 ∨ p.zeroLenMode = .hang) :
    decStep p S b = ({ S with explen := be16 hi b, buf := [], state := .awaitingData }, []) := by
  have hn : ¬ (be16 hi b = 0 ∧ p.zeroLenMode = .immediate) := by
    rintro ⟨hz, hm⟩
    obtain h | h := h
    · exact h hz
    · simp [hm] at h
  rw [decStep_length p S b hs, stepLength_second p S b hb, if_neg hn]

/-- In the IMMEDIATE mode a zero length completes the MESSAGE on the empty payload (R83). -/
theorem decStep_length_immediate {hi : Byte} (hs : S.state = .awaitingLength) (hk : S.kind = .message)
    (hb : S.buf = [hi]) (hz : be16 hi b = 0) (hm : p.zeroLenMode = .immediate) :
    decStep p S b = (S.toIdle, [codecReply p []]) := by
  rw [decStep_length p S b hs, stepLength_second p S b hb, if_pos ⟨hz, hm⟩]
  exact complete_message p { S with explen := be16 hi b, buf := [], state := .awaitingData } hk

/-- A payload byte is kept, and completes the frame if it fills the payload (R84). -/
theorem decStep_data_nonzero (hs : S.state = .awaitingData) (hz : S.explen ≠ 0) :
    decStep p S b =
      if S.buf.length + 1 = S.explen.toNat then complete p { S with buf := S.buf ++ [b] }
      else ({ S with buf := S.buf ++ [b] }, []) := by
  rw [decStep_data p S b hs, stepData_nonzero p S b hz]

/-- Under an expected length of 0 the byte is absorbed, up to the buffer's capacity (R93). -/
theorem decStep_data_hang (hs : S.state = .awaitingData) (hz : S.explen = 0) :
    decStep p S b =
      ({ S with buf := if S.buf.length < Config.bufCap then S.buf ++ [b] else S.buf }, []) := by
  rw [decStep_data p S b hs, stepData_zero p S b hz, stepHang_eq]

/-- The events `es` are the codec's reply on `raw`: the records or the cause (R85, 20_memory.md R45). -/
def IsCodecReply (p : Params) (raw : List Byte) (es : List Event) : Prop :=
  (∃ m, msgParse p.registry raw = .ok m ∧ es = [.messageDecoded m]) ∨
    ∃ c, msgParse p.registry raw = .err c ∧ es = [.error (.decode c)]

theorem isCodecReply_codecReply (raw : List Byte) : IsCodecReply p raw [codecReply p raw] := by
  cases h : msgParse p.registry raw with
  | ok m => exact .inl ⟨m, h, by rw [codecReply_ok h]⟩
  | err c => exact .inr ⟨c, h, by rw [codecReply_err h]⟩

/-- What the completion of a payload delivers, by the kind of its frame (R85). -/
theorem complete_event (hk : S.kind = .message ∨ S.kind = .data ∨ S.kind = .version) :
    (S.kind = .message ∧ IsCodecReply p S.buf (complete p S).2) ∨
      (S.kind = .data ∧ (complete p S).2 = [.dataReceived .data S.buf]) ∨
      (S.kind = .version ∧ (complete p S).2 = [.dataReceived .version S.buf]) := by
  obtain hk | hk | hk := hk
  · exact .inl ⟨hk, by rw [complete_message p S hk]; exact isCodecReply_codecReply _⟩
  · exact .inr (.inl ⟨hk, by rw [complete_data p S hk]⟩)
  · exact .inr (.inr ⟨hk, by rw [complete_version p S hk]⟩)

/-- What the byte after the code of a format I frame delivers, by the kind of its frame (R86). -/
theorem infoByteEvent_cases {k : Kind} (hk : k = .ack ∨ k = .error ∨ k = .interrupt) :
    (k = .ack ∧ infoByteEvent k b = [.ack b]) ∨
      (k = .error ∧ infoByteEvent k b = [.error (.resp b)]) ∨
      (k = .interrupt ∧ infoByteEvent k b = [.interrupt b]) := by
  obtain rfl | rfl | rfl := hk
  · exact .inl ⟨rfl, rfl⟩
  · exact .inr (.inl ⟨rfl, rfl⟩)
  · exact .inr (.inr ⟨rfl, rfl⟩)

end rows

section run
variable {p : Params} {S : Session}

theorem decStep_events_length_le (p : Params) (S : Session) (b : Byte) : (decStep p S b).2.length ≤ 1 := by
  obtain h | ⟨x, h, -⟩ | h := decStep_oneEventAtMost p S b <;> simp [h]

/-- A run delivers at most one event a byte (R90). -/
theorem decRun_events_length_le (p : Params) (S : Session) (w : List Byte) :
    (decRun p S w).2.length ≤ w.length := by
  induction w generalizing S with
  | nil => exact Nat.le_refl 0
  | cons b w ih =>
    have hfirst := decStep_events_length_le p S b
    have hlater := ih (decStep p S b).1
    simp only [decRun_cons, List.length_append, List.length_cons]
    omega

/-- Under an expected length of 0 a run is absorbed, up to the buffer's capacity (R93). -/
theorem decRun_data_hang (p : Params) {S : Session} (w : List Byte) (hs : S.state = .awaitingData)
    (hz : S.explen = 0) (hl : S.buf.length ≤ Config.bufCap) :
    decRun p S w = ({ S with buf := (S.buf ++ w).take Config.bufCap }, []) := by
  induction w generalizing S with
  | nil => simp [List.take_of_length_le hl]
  | cons b w ih =>
    rw [decRun_cons, decStep_data_hang hs hz]
    by_cases hroom : S.buf.length < Config.bufCap
    · have hl' : (S.buf ++ [b]).length ≤ Config.bufCap := by simpa using Nat.succ_le_of_lt hroom
      simp only [if_pos hroom, ih (S := { S with buf := S.buf ++ [b] }) hs hz hl', List.append_assoc,
        List.singleton_append, List.nil_append]
    · have hfull : Config.bufCap ≤ S.buf.length := Nat.le_of_not_lt hroom
      simp only [if_neg hroom, ih hs hz hl, List.take_append_of_le_length hfull, List.nil_append]

/-- The three bytes of an empty MESSAGE in the HANG mode: the pending text is delivered, and the decoder waits
in the absorbing state (R83, R93). -/
theorem decRun_emptyMessage_hang (hs : S.state = .idle) (hm : p.zeroLenMode = .hang) :
    decRun p S [0xA5, 0, 0] =
      ({ state := .awaitingData, buf := [], explen := 0, kind := .message, info := [] },
        preText S.info) := by
  rw [decRun_cons, decStep_idle_code hs rfl, decRun_cons, decStep_length_first rfl rfl, decRun_cons,
    decStep_length_opens rfl rfl (.inr hm)]
  simp [openFrame, classify, be16]

end run

section total
variable {e : EdgeIn} {s : State}

/-- Inside the domain a byte is always taken. -/
theorem takeByte_total (b : Byte) (hd : s.session.inDomain = true) : ∃ t, takeByte b s = .next t := by
  obtain hes | ⟨x, hes, hown⟩ | hes := decStep_oneEventAtMost s.par s.session b
  · exact ⟨_, takeByte_silent hd hes⟩
  · exact ⟨_, takeByte_own hd hes hown⟩
  · exact ⟨_, takeByte_request hd hes (codecReply_fromCodec _)⟩

theorem decoderEdge_total (hd : s.session.inDomain = true) : ∃ t, decoderEdge e s = .next t := by
  cases hx : s.evPending with
  | some x =>
    cases hr : e.evReady with
    | false => exact ⟨_, decoderEdge_event_held hx hr⟩
    | true => exact ⟨_, decoderEdge_event_accepted hx hr⟩
  | none =>
    cases hm : s.mpPending with
    | some raw =>
      cases ha : e.mpAnswer with
      | false => exact ⟨_, decoderEdge_request_waiting hx hm ha⟩
      | true => exact ⟨_, decoderEdge_request_answered hx hm ha⟩
    | none =>
      cases hv : e.rxValid with
      | false => exact ⟨_, decoderEdge_no_byte hx hm hv⟩
      | true => rw [decoderEdge_byte hx hm hv]; exact takeByte_total _ hd

theorem clockEdge_total (e : EdgeIn) (hd : s.session.inDomain = true) : ∃ t, clockEdge e s = .next t := by
  cases hr : e.rst with
  | true => exact ⟨_, by rw [clockEdge, hr]; rfl⟩
  | false =>
    obtain ⟨tx, enc, hedge⟩ := clockEdge_eq_decoderEdge (s := s) hr
    rw [hedge]
    exact decoderEdge_total hd

theorem step_total (hd : s.session.inDomain = true) : ∃ t, step s = .next t := by
  obtain ⟨c, cmd, -, hs⟩ | ⟨b, rx, -, -, hs⟩ | ⟨-, -, hs⟩ := step_cases s
  · exact ⟨_, hs.trans (exec_encode c _)⟩
  · exact ⟨_, hs.trans (feed_of_inDomain [b] { s with rx := rx } hd)⟩
  · exact ⟨s, hs⟩

/-- Every step of a sound state answers a sound state, so every run does (R91, 60_exceptions.md R167). -/
theorem safeFor_of_inv (h : s.Inv) (k : Nat) : s.SafeFor k := by
  induction k generalizing s with
  | zero => exact ⟨s, rfl⟩
  | succ k ih =>
    have ⟨_, hsess, _⟩ := h
    obtain ⟨t, ht⟩ := step_total (inDomain_of_inv hsess)
    obtain ⟨u, hu⟩ := ih (step_inv h ht)
    exact ⟨u, (runSteps_next k ht).trans hu⟩

end total

/-- Settles O34: the invariant lies inside the decoder's domain, where steps and edges are total. -/
theorem runsNeverStop : Obligations.RunsNeverStop := by
  unfold Obligations.RunsNeverStop
  exact ⟨fun _ k h => safeFor_of_inv h k,
    fun e _ ⟨_, hsess, _⟩ => clockEdge_total e (inDomain_of_inv hsess)⟩

/-- Settles O9: in each state the rows of the table, one by one; ENCODE writes TX alone. -/
theorem transitionTable : Obligations.TransitionTable := by
  unfold Obligations.TransitionTable
  refine ⟨fun p S b ⟨hst, _⟩ => ?_, fun c s t h => ?_, fun s m hm => ?_⟩
  · cases hs : S.state with
    | idle =>
      refine ⟨?_, ?_, ?_, fun hb => ?_⟩
      · rintro rfl
        rw [decStep_idle_code hs rfl]
        exact ⟨rfl, rfl⟩
      · rintro (rfl | rfl) <;> rw [decStep_idle_code hs rfl] <;> exact ⟨rfl, rfl, rfl⟩
      · rintro (rfl | rfl | rfl) <;> rw [decStep_idle_code hs rfl] <;> exact ⟨rfl, rfl⟩
      · rw [decStep_idle_text hs hb]
        split <;> exact ⟨hs, rfl⟩
    | awaitingLength =>
      obtain ⟨hk, -, -⟩ := (stateInv_length hs).mp hst
      refine ⟨fun hb => ?_, fun hi hb hn => ?_, fun hi hb hz hm => ?_, fun hi hb hz hm => ?_⟩
      · rw [decStep_length_first hs hb]
        exact ⟨hs, rfl⟩
      · rw [decStep_length_opens hs hb (.inl hn)]
        exact ⟨rfl, rfl⟩
      · rw [decStep_length_immediate hs hk hb hz hm]
        exact ⟨rfl, isCodecReply_codecReply []⟩
      · rw [decStep_length_opens hs hb (.inr hm)]
        exact ⟨rfl, hz, rfl⟩
    | awaitingData =>
      obtain ⟨hk, -⟩ := dataInv_iff.mp ((stateInv_data hs).mp hst)
      refine ⟨fun hz hl => ?_, fun hz hl => ?_, fun hz => ?_⟩
      · rw [decStep_data_nonzero hs hz, if_neg (Nat.ne_of_lt hl)]
        exact ⟨hs, rfl⟩
      · rw [decStep_data_nonzero hs hz, if_pos hl]
        exact ⟨by rw [complete_session]; rfl, complete_event (S := { S with buf := S.buf ++ [b] }) hk⟩
      · rw [decStep_data_hang hs hz]
        exact ⟨hs, rfl⟩
    | awaitingInfoByte =>
      obtain ⟨hk, -, -⟩ := (stateInv_infoByte hs).mp hst
      rw [decStep_infoByte p S b hs, stepInfoByte_eq]
      exact ⟨rfl, infoByteEvent_cases hk⟩
  · rw [exec_encode] at h
    cases h
    rfl
  · cases m with
    | reset => exact absurd rfl hm
    | push _ | takeEvent | submit _ | drain _ => rfl

/-- Settles O10: `decStep_events_length_le`. -/
theorem atMostOneEventPerByte : Obligations.AtMostOneEventPerByte := by
  unfold Obligations.AtMostOneEventPerByte
  exact decStep_events_length_le

/-- Settles O13: `decRun_data_hang`. -/
theorem hangAbsorbsEveryByte : Obligations.HangAbsorbsEveryByte := by
  unfold Obligations.HangAbsorbsEveryByte
  exact fun p _ w => decRun_data_hang p w

/-- Settles O18: the instruction is its three bytes. -/
theorem emptyMessageHangsInHangMode : Obligations.EmptyMessageHangsInHangMode := by
  unfold Obligations.EmptyMessageHangsInHangMode
  intro s hs hm
  have hbytes : encode s.par.mark0 s.par.mark1 (.message []) = [0xA5, 0, 0] := rfl
  rw [exec_inbound rfl rfl s.par.mark0 s.par.mark1, hbytes,
    feed_of_inDomain _ s (inDomain_of_idle _ hs), decRun_emptyMessage_hang hs hm]

/-- Settles O19: the instruction is its one byte, and that byte is text. -/
theorem infotextAppendsTheFilteredByte : Obligations.InfotextAppendsTheFilteredByte := by
  unfold Obligations.InfotextAppendsTheFilteredByte
  intro s b hs hb
  have hw : (Instr.infotext b).wf = true := by simpa [Instr.wf] using hb
  rw [exec_inbound hw rfl s.par.mark0 s.par.mark1, encode, feed_one b s (inDomain_of_idle _ hs),
    decStep_idle_text hs hb]
  split
  · rfl
  · rw [List.append_nil]

/-- Settles O25: an inbound instruction is the run of its bytes, at most one event a byte; ENCODE writes TX
alone. -/
theorem everyInstructionCompletesWithinItsFrame : Obligations.EveryInstructionCompletesWithinItsFrame := by
  unfold Obligations.EveryInstructionCompletesWithinItsFrame
  refine fun i s hw hd => ⟨fun hi => ?_, fun hi => ?_⟩
  · have hrun := exec_inbound hw hi s.par.mark0 s.par.mark1 s
    exact ⟨_, _, decRun_events_length_le _ _ _, hrun.trans (feed_of_inDomain _ s hd)⟩
  · cases i with
    | encode c => exact ⟨_, exec_encode c s⟩
    | version _ _ | ack _ | data _ _ | interrupt _ | message _ | error _ | infotext _ => cases hi

end Sys2Proof.Machine
end

section
/-! Proofs for 41_frame_types.md (R100 to R106): what a whole frame delivers from Idle, and how a run of text
is cut. -/

namespace Sys2Proof.Machine

section frame
variable {p : Params} {S : Session}

/-- A frame in Idle: its code delivers the pending text, and its other bytes run from the opened frame (R82,
R88). -/
theorem decRun_idle_code {c : Byte} (w : List Byte) (hs : S.state = .idle) (hc : isCode c = true) :
    decRun p S (c :: w) =
      ((decRun p (openFrame c { S with info := [] }) w).1,
        preText S.info ++ (decRun p (openFrame c { S with info := [] }) w).2) := by
  rw [decRun_cons, decStep_idle_code hs hc]

/-- After a byte that delivers nothing the run is the run of the bytes that follow it. -/
theorem decRun_cons_silent {b : Byte} {T : Session} (w : List Byte) (h : decStep p S b = (T, [])) :
    decRun p S (b :: w) = decRun p T w := by
  simp [h]

/-- Bytes that fill the payload complete the frame on all of them (R84): up to the last one they are only
kept. -/
theorem decRun_data_filled {w : List Byte} (hs : S.state = .awaitingData) (hw : w ≠ [])
    (hl : S.buf.length + w.length = S.explen.toNat) :
    decRun p S w = complete p { S with buf := S.buf ++ w } := by
  obtain ⟨u, b, rfl⟩ : ∃ u b, w = u ++ [b] :=
    ⟨w.dropLast, w.getLast hw, (List.dropLast_concat_getLast hw).symm⟩
  rw [List.length_append, List.length_singleton, ← Nat.add_assoc] at hl
  have hz : S.explen ≠ 0 := by
    intro h
    simp [h] at hl
  have hlast : decStep p { S with buf := S.buf ++ u } b =
      complete p { S with buf := S.buf ++ u ++ [b] } := by
    rw [decStep_data_nonzero (S := { S with buf := S.buf ++ u }) hs hz, if_pos (by rwa [List.length_append])]
  rw [decRun_append, decRun_data_unfilled p hs (by omega)]
  simp [hlast]

/-- The byte after the code of a format I frame completes it with the event of its kind (R86). -/
theorem decRun_infoByte (hs : S.state = .awaitingInfoByte) (hi : S.info = []) (b : Byte) :
    decRun p S [b] = (Session.reset, infoByteEvent S.kind b) := by
  simp [decStep_infoByte p S b hs, stepInfoByte_eq, toIdle_eq_reset S hi]

/-- Bytes that fill a MESSAGE's payload complete it with the codec's reply on them (R85). -/
theorem decRun_message_filled {q : List Byte} (hs : S.state = .awaitingData) (hk : S.kind = .message)
    (hb : S.buf = []) (hi : S.info = []) (hq : q ≠ []) (hl : q.length = S.explen.toNat) :
    decRun p S q = (Session.reset, [codecReply p q]) := by
  rw [decRun_data_filled hs hq (by simp [hb, hl]), complete_message p { S with buf := S.buf ++ q } hk,
    toIdle_eq_reset { S with buf := S.buf ++ q } hi, hb, List.nil_append]

/-- The second length byte and the payload complete the MESSAGE with the codec's reply on that payload (R83,
R84, R85); a length of 0 completes at the length byte, in the IMMEDIATE mode (D7). -/
theorem decRun_secondLength_payload {q : List Byte} (hs : S.state = .awaitingLength)
    (hk : S.kind = .message) (hb : S.buf = [(lengthBytes q.length).1]) (hi : S.info = [])
    (hq : q.length ≤ 65535) (hm : q = [] → p.zeroLenMode = .immediate) :
    decRun p S ((lengthBytes q.length).2 :: q) = (Session.reset, [codecReply p q]) := by
  have hlen := be16_lengthBytes q.length hq
  by_cases hq0 : q = []
  · have hz : be16 (lengthBytes q.length).1 (lengthBytes q.length).2 = 0 := by rw [hq0]; rfl
    rw [decRun_cons, decStep_length_immediate hs hk hb hz (hm hq0), hq0, decRun_nil,
      toIdle_eq_reset S hi, List.append_nil]
  · have hz : be16 (lengthBytes q.length).1 (lengthBytes q.length).2 ≠ 0 := by
      intro h
      rw [h] at hlen
      exact hq0 (List.length_eq_zero_iff.mp hlen.symm)
    rw [decRun_cons_silent q (decStep_length_opens hs hb (.inl hz))]
    exact decRun_message_filled rfl hk rfl hi hq0 hlen.symm

/-- So do a whole length field and its payload. -/
theorem decRun_length_payload {q : List Byte} (hs : S.state = .awaitingLength) (hk : S.kind = .message)
    (hb : S.buf = []) (hi : S.info = []) (hq : q.length ≤ 65535)
    (hm : q = [] → p.zeroLenMode = .immediate) :
    decRun p S ((lengthBytes q.length).1 :: (lengthBytes q.length).2 :: q) =
      (Session.reset, [codecReply p q]) := by
  rw [decRun_cons_silent _ (decStep_length_first hs hb)]
  exact decRun_secondLength_payload hs hk rfl hi hq hm

end frame

section exec
variable {s : State}

/-- An instruction in Idle delivers the pending text and one event, and leaves the reset session, if that is
what the bytes after its code do from the frame that the code opens. -/
theorem exec_of_frame_run {i : Instr} {c : Byte} {w : List Byte} {x : Event} (hs : s.session.state = .idle)
    (hw : i.wf = true) (hi : i.inbound = true) (hbytes : encode s.par.mark0 s.par.mark1 i = c :: w)
    (hc : isCode c = true)
    (hrun : decRun s.par (openFrame c { s.session with info := [] }) w = (Session.reset, [x])) :
    exec i s = .next { s with
      session := Session.reset, ev := s.ev ++ preText s.session.info ++ [x] } := by
  rw [exec_inbound hw hi s.par.mark0 s.par.mark1, hbytes, feed_of_inDomain _ s (inDomain_of_idle _ hs),
    decRun_idle_code w hs hc, hrun, List.append_assoc]

end exec

/-- Settles O15: two bytes fill the payload that the code opens. -/
theorem fixedTwoFramesDeliverTheirBytes : Obligations.FixedTwoFramesDeliverTheirBytes := by
  unfold Obligations.FixedTwoFramesDeliverTheirBytes
  intro s d0 d1 hs
  constructor
  · exact exec_of_frame_run hs rfl rfl rfl rfl
      ((decRun_data_filled rfl (List.cons_ne_nil _ _) rfl).trans (complete_data _ _ rfl))
  · exact exec_of_frame_run hs rfl rfl rfl rfl
      ((decRun_data_filled rfl (List.cons_ne_nil _ _) rfl).trans (complete_version _ _ rfl))

/-- Settles O16: one byte completes each of the three frames. -/
theorem infoByteFramesDeliverTheirByte : Obligations.InfoByteFramesDeliverTheirByte := by
  unfold Obligations.InfoByteFramesDeliverTheirByte
  intro s b hs
  refine ⟨?_, ?_, ?_⟩ <;>
    exact exec_of_frame_run hs rfl rfl rfl rfl (decRun_infoByte rfl rfl b)

/-- Settles O17: `decRun_length_payload` from the frame that the code opens. -/
theorem messageFrameDeliversTheCodecsReply : Obligations.MessageFrameDeliversTheCodecsReply := by
  unfold Obligations.MessageFrameDeliversTheCodecsReply
  intro s q hs hq hm
  exact exec_of_frame_run hs (decide_eq_true hq) rfl rfl rfl
    (decRun_length_payload rfl rfl rfl rfl hq hm)

section text
variable {p : Params} {S : Session}

/-- The information buffer stays sound when the filtered byte does not fill it up (R32 items 5 and 6). -/
theorem infoInv_append {b : Byte} (h : S.infoInv p) (hn : p.infoCap ≠ some (S.info.length + 1)) :
    ({ S with info := S.info ++ [filter p b] } : Session).infoInv p := by
  obtain ⟨hfilt, hcap⟩ := h
  refine ⟨filtered_append hfilt b, fun cap hc => ?_⟩
  have hlt := hcap cap hc
  have hne : cap ≠ S.info.length + 1 := fun he => hn (he ▸ hc)
  rw [List.length_append, List.length_singleton]
  omega

/-- The result `r` of a run from `S` delivers the text `t`: the delivered pieces, each of exactly INFO_CAP
bytes, and what stays in `info` under the cap are `t` in order; no other register is written (R106). -/
def DeliversText (p : Params) (S : Session) (t : List Byte) (r : Session × List Event) : Prop :=
  ∃ texts : List (List Byte),
    r.2 = texts.map Event.informationText ∧ texts.flatten ++ r.1.info = t ∧
    (∀ piece ∈ texts, p.infoCap = some piece.length) ∧ r.1 = { S with info := r.1.info } ∧
    ∀ cap, p.infoCap = some cap → r.1.info.length < cap

/-- With no bytes the pending text stays. -/
theorem deliversText_nil (h : S.infoInv p) : DeliversText p S S.info (S, []) :=
  ⟨[], rfl, rfl, nofun, rfl, h.2⟩

/-- A full piece goes before the text of the run that follows it. -/
theorem deliversText_cons {piece t : List Byte} {r : Session × List Event}
    (hfull : p.infoCap = some piece.length) (h : DeliversText p { S with info := [] } t r) :
    DeliversText p S (piece ++ t) (r.1, .informationText piece :: r.2) := by
  obtain ⟨texts, hev, hflat, hpieces, hframe, hcap⟩ := h
  refine ⟨piece :: texts, by rw [hev]; rfl, ?_, List.forall_mem_cons.mpr ⟨hfull, hpieces⟩, hframe, hcap⟩
  rw [List.flatten_cons, List.append_assoc, hflat]

/-- A run of text bytes delivers the old text and the filtered run (R87, R106): a byte that fills the buffer
ends a piece, any other one lengthens the pending text. -/
theorem decRun_text {w : List Byte} (hp : p.infoCap ≠ some 0) (hs : S.state = .idle) (h : S.infoInv p)
    (hw : ∀ b ∈ w, b ∉ Config.responseCodes) :
    DeliversText p S (S.info ++ w.map (filter p)) (decRun p S w) := by
  induction w generalizing S with
  | nil =>
    rw [List.map_nil, List.append_nil]
    exact deliversText_nil h
  | cons b w ih =>
    obtain ⟨hb, hrest⟩ := List.forall_mem_cons.mp hw
    have htext : S.info ++ (b :: w).map (filter p) =
        (S.info ++ [filter p b]) ++ w.map (filter p) := by simp
    rw [decRun_cons, decStep_idle_text hs hb, htext]
    split
    · rename_i hfull
      refine deliversText_cons (by rwa [List.length_append]) ?_
      exact ih (S := { S with info := [] }) hs (infoInv_of_empty hp rfl) hrest
    · rename_i hn
      exact ih (S := { S with info := S.info ++ [filter p b] }) hs (infoInv_append h hn) hrest

end text

/-- Settles O21: `decRun_text`. -/
theorem textRunsAreDeliveredWhole : Obligations.TextRunsAreDeliveredWhole := by
  unfold Obligations.TextRunsAreDeliveredWhole
  exact fun p S w hs h hp hw => decRun_text hp hs h hw

end Sys2Proof.Machine
end

section
/-! SUPPORT and proofs. The stuffed command (42_encoder.md): its length, its concatenation, its reader. -/

namespace Sys2Proof

section stuffing
variable {m0 m1 : Byte}

/-- Stuffing a byte adds one byte exactly when it is the reserved one (R120). -/
theorem stuff_length (m0 m1 b : Byte) :
    (stuff m0 m1 b).length = 1 + if b = m0 then 1 else 0 := by
  by_cases h : b = m0
  · rw [h, stuff_of_eq, if_pos rfl]; rfl
  · rw [stuff_of_ne m1 h, if_neg h]; rfl

/-- The stuffed command is longer by the number of its reserved bytes (R124). -/
theorem stuffAll_length (m0 m1 : Byte) (c : List Byte) :
    (stuffAll m0 m1 c).length = c.length + c.count m0 := by
  induction c with
  | nil => rfl
  | cons b c ih =>
    simp only [stuffAll_cons, List.length_append, stuff_length, ih, List.length_cons, List.count_cons,
      beq_iff_eq]
    omega

/-- Stuffing looks at no neighbour: the stuffed pieces are the stuffed whole (R125). -/
theorem stuffAll_append (m0 m1 : Byte) (c d : List Byte) :
    stuffAll m0 m1 (c ++ d) = stuffAll m0 m1 c ++ stuffAll m0 m1 d :=
  List.flatMap_append

/-- With distinct markers a stuffed command does not begin with the reserved byte: an escape stands
before it. -/
theorem stuffAll_head_ne (hm : m0 ≠ m1) (c : List Byte) : (stuffAll m0 m1 c).head? ≠ some m0 := by
  cases c with
  | nil => exact nofun
  | cons b c =>
    rw [stuffAll_cons]
    by_cases hb : b = m0
    · rw [hb, stuff_of_eq]
      exact fun h => hm (Option.some.inj h).symm
    · rw [stuff_of_ne m1 hb]
      exact fun h => hb (Option.some.inj h)

/-- The reader drops the escape before a reserved byte. -/
theorem unstuff_escaped (rest : List Byte) :
    unstuff m0 m1 (m1 :: m0 :: rest) = (unstuff m0 m1 rest).map (m0 :: ·) := by
  rw [unstuff, if_pos ⟨rfl, rfl⟩]

/-- The reader keeps a byte that is not reserved and does not stand as an escape before a reserved one. -/
theorem unstuff_plain {b : Byte} {rest : List Byte} (hb : b ≠ m0)
    (hesc : b = m1 → rest.head? ≠ some m0) :
    unstuff m0 m1 (b :: rest) = (unstuff m0 m1 rest).map (b :: ·) := by
  cases rest with
  | nil => simp [unstuff, hb]
  | cons p rest =>
    have hno : ¬(b = m1 ∧ p = m0) := fun ⟨h1, h0⟩ => hesc h1 (congrArg some h0)
    rw [unstuff, if_neg hno, if_neg hb]

/-- The reader inverts the stuffing. With equal markers a plain byte is no escape; with distinct ones the
byte after it is never the reserved one. -/
theorem unstuff_stuffAll (m0 m1 : Byte) (c : List Byte) : unstuff m0 m1 (stuffAll m0 m1 c) = some c := by
  induction c with
  | nil => rfl
  | cons b c ih =>
    rw [stuffAll_cons]
    by_cases hb : b = m0
    · rw [hb, stuff_of_eq, List.cons_append, List.singleton_append, unstuff_escaped, ih]
      rfl
    · have hesc : b = m1 → (stuffAll m0 m1 c).head? ≠ some m0 :=
        fun h => stuffAll_head_ne (h ▸ Ne.symm hb) c
      rw [stuff_of_ne m1 hb, List.singleton_append, unstuff_plain hb hesc, ih]
      rfl

/-- A command is read back from its frame (R125 item 3; the reader is the model's, log 22). -/
theorem decodeOutbound_encode (m0 m1 : Byte) (c : List Byte) :
    decodeOutbound m0 m1 (encode m0 m1 (.encode c)) = some (.encode c) := by
  rw [encode, decodeOutbound, if_pos ⟨rfl, rfl⟩, unstuff_stuffAll]
  rfl

/-- A frame's length: the preamble, the command and its escapes (R124). -/
theorem encode_encode_length (m0 m1 : Byte) (c : List Byte) :
    (encode m0 m1 (.encode c)).length = 2 + c.length + c.count m0 := by
  rw [encode, List.length_cons, List.length_cons, stuffAll_length]
  omega

/-- With distinct markers, a trailing MARK1 and the next frame's preamble read as an escaped MARK0 and a
MARK1 (R125 item 1). -/
theorem encode_append_frame (hm : m0 ≠ m1) (c1 c2 : List Byte) :
    encode m0 m1 (.encode (c1 ++ [m1])) ++ encode m0 m1 (.encode c2) =
      encode m0 m1 (.encode (c1 ++ [m0, m1] ++ c2)) := by
  simp only [encode, stuffAll_append, stuffAll_cons, stuffAll_nil, stuff_of_eq, stuff_of_ne m1 hm.symm,
    List.cons_append, List.nil_append, List.append_nil, List.append_assoc]

end stuffing

/-- Settles O6: `unstuff_stuffAll`. -/
theorem outboundFrameDeterminesItsCommand : Obligations.OutboundFrameDeterminesItsCommand := by
  unfold Obligations.OutboundFrameDeterminesItsCommand
  exact decodeOutbound_encode

end Sys2Proof

namespace Sys2Proof.Machine

/-- Settles O22: `exec_encode`, with the stuffing written out byte by byte. -/
theorem encodeAppendsTheStuffedFrame : Obligations.EncodeAppendsTheStuffedFrame := by
  unfold Obligations.EncodeAppendsTheStuffedFrame
  intro s c
  rw [exec_encode, ← List.flatMap_def]
  rfl

/-- Settles O23: `encode_encode_length`, and a command has at most as many MARK0 as bytes. -/
theorem encodedLength : Obligations.EncodedLength := by
  unfold Obligations.EncodedLength
  intro s t c ht
  rw [exec_encode] at ht
  cases ht
  have hcount : c.count s.par.mark0 ≤ c.length := List.count_le_length
  simp only [List.length_append, encode_encode_length]
  omega

/-- Settles O24: each ENCODE appends its frame, and `encode_append_frame` joins the two. -/
theorem outboundFramesCollide : Obligations.OutboundFramesCollide := by
  unfold Obligations.OutboundFramesCollide
  intro s t u c1 c2 hm ht hu
  rw [exec_encode] at ht
  cases ht
  rw [exec_encode] at hu
  cases hu
  rw [exec_encode, ← encode_append_frame hm, List.append_assoc]

end Sys2Proof.Machine
end

section
/-! Proofs for 43_message_codec_port.md (R136 to R151): the header byte, the checks of a record's head and
body one by one, the loop over the records, what `Serialize` writes, and the variants. -/

namespace Sys2Proof.Machine

section header

/-- Every header is what its byte reads as: the flags are independent (R136). -/
theorem fromByte_toByte (h : Header) : Header.fromByte h.toByte = h := by
  obtain ⟨mb, me, c, s, i, t⟩ := h
  revert mb me c s i t
  decide

/-- Every byte is a valid header's byte (R136). -/
theorem toByte_fromByte (b : Byte) : (Header.fromByte b).toByte = b := by
  revert b
  decide

/-- The place of each flag in the header byte (R136). -/
theorem toByte_toNat (h : Header) : h.toByte.toNat =
    128 * h.messageBegin.toNat + 64 * h.messageEnd.toNat + 32 * h.chunked.toNat +
      16 * h.shortRecord.toNat + 8 * h.idLengthPresent.toNat + h.tnf.toNat := by
  obtain ⟨mb, me, c, s, i, t⟩ := h
  revert mb me c s i t
  decide

end header

section record
variable {reg : List (List Byte × Variant)}

/-- A type name that is found is a registered one (R140). -/
theorem registryLookup_mem {name : List Byte} {v : Variant} (h : registryLookup reg name = some v) :
    (name, v) ∈ reg := by
  obtain ⟨⟨n, w⟩, hf, rfl⟩ := Option.map_eq_some_iff.mp h
  obtain rfl : n = name := by simpa using List.find?_some hf
  exact List.mem_of_find?_eq_some hf

/-- The record of a registered name whose factory takes the payload (R138, R147). -/
theorem buildRecord_of_lookup {name payload : List Byte} {v : Variant} {f : Fields}
    (hl : registryLookup reg name = some v) (hd : variantDecode v payload = .ok f) :
    buildRecord reg name payload =
      .ok { type := name, tnf := variantTnf v, payload := payload, fields := f } := by
  simp [buildRecord, hl, hd]

/-- With nonempty registered names, a record has a nonempty name. -/
theorem type_ne_nil_of_buildRecord (hreg : ∀ e ∈ reg, e.1 ≠ []) {name payload : List Byte} {r : Record}
    (h : buildRecord reg name payload = .ok r) : r.type ≠ [] := by
  obtain ⟨v, f, hl, -, rfl⟩ := buildRecord_ok h
  exact hreg _ (registryLookup_mem hl)

variable {tl n : Nat} {name tail body : List Byte} {r : Record}

/-- The type name's check (R138). -/
theorem parseBody_name_truncated (recLen headLen : Nat) (h : body.length < tl) :
    parseBody reg tl recLen body headLen = .err (.truncatedStream tl body.length) :=
  if_pos h

theorem not_length_append_lt (a b : List Byte) : ¬ (a ++ b).length < a.length := by
  rw [List.length_append]
  omega

/-- After a whole type name, the payload's check (R138). -/
theorem parseBody_payload_truncated (headLen : Nat) (hn : name.length = tl) (h : tail.length < n) :
    parseBody reg tl n (name ++ tail) headLen = .err (.truncatedStream n tail.length) := by
  subst hn
  simp only [parseBody, if_neg (not_length_append_lt name tail), List.drop_left, if_pos h]

/-- A body that starts with a record's name and payload is read as that record (R138). -/
theorem parseBody_append (headLen : Nat) (h : buildRecord reg r.type r.payload = .ok r) :
    parseBody reg r.type.length r.payload.length (r.type ++ (r.payload ++ tail)) headLen =
      .ok (r, headLen + r.type.length + r.payload.length) := by
  simp only [parseBody, if_neg (not_length_append_lt _ _), List.drop_left, List.take_left, h]

/-- A parsed body is the name and the payload of its record, one after the other. -/
theorem parseBody_slices {recLen headLen : Nat} (h : parseBody reg tl recLen body headLen = .ok (r, n)) :
    n = headLen + r.type.length + r.payload.length ∧ n ≤ headLen + body.length ∧
      r.type ++ r.payload = body.take (r.type.length + r.payload.length) ∧
      buildRecord reg r.type r.payload = .ok r := by
  obtain ⟨htl, hrl, rfl, hb⟩ := parseBody_ok h
  obtain ⟨v, f, -, -, rfl⟩ := buildRecord_ok hb
  dsimp only
  rw [List.length_take_of_le htl, List.length_take_of_le hrl, List.take_add]
  rw [List.length_drop] at hrl
  exact ⟨rfl, by omega, rfl, hb⟩

variable {hdr t l0 l1 l2 l3 : Byte} {bs : List Byte}

/-- Fewer than 4 bytes are no record head (R138, R139). -/
theorem parseRecord_truncated (h : bs.length < 4) :
    parseRecord reg bs = .err (.truncatedStream 4 bs.length) := by
  match bs, h with
  | [], _ | [_], _ | [_, _], _ | [_, _, _], _ => rfl

/-- The short form: one length byte, a head of 3 bytes (R137, R138). -/
theorem parseRecord_short (hs : (Header.fromByte hdr).shortRecord = true) (hb : body ≠ []) :
    parseRecord reg (hdr :: t :: l0 :: body) = parseBody reg t.toNat l0.toNat body 3 := by
  obtain ⟨l1, rest, rfl⟩ := List.exists_cons_of_ne_nil hb
  exact if_pos hs

/-- The long form: four length bytes, a head of 6 bytes (R137, R138). -/
theorem parseRecord_long (hs : (Header.fromByte hdr).shortRecord = false) :
    parseRecord reg (hdr :: t :: l0 :: l1 :: l2 :: l3 :: body) =
      parseBody reg t.toNat (be32 l0 l1 l2 l3) body 6 := by
  simp [parseRecord, hs]

/-- The long form's head does not fit into 4 or 5 bytes (R138, D20). -/
theorem parseRecord_long_truncated (hs : (Header.fromByte hdr).shortRecord = false)
    (h3 : 3 ≤ bs.length) (h5 : bs.length < 5) :
    parseRecord reg (hdr :: bs) = .err (.truncatedStream 6 (bs.length + 1)) := by
  match bs, h3, h5 with
  | [_, _, _], _, _ | [_, _, _, _], _, _ => simp [parseRecord, hs]

/-- A parsed record lies inside the buffer, behind a head of 3 or 6 bytes, and is what its registered variant
builds (R138, R151). -/
theorem parseRecord_slices (h : parseRecord reg bs = .ok (r, n)) :
    ∃ hd, (hd = 3 ∨ hd = 6) ∧ n = hd + r.type.length + r.payload.length ∧ n ≤ bs.length ∧
      r.type ++ r.payload = (bs.drop hd).take (r.type.length + r.payload.length) ∧
      buildRecord reg r.type r.payload = .ok r := by
  rcases parseRecord_ok h with
    ⟨hdr, t, l0, l1, rest, rfl, -, hb⟩ | ⟨hdr, t, l0, l1, l2, l3, body, rfl, -, hb⟩
  · obtain ⟨hn, hle, hs, hr⟩ := parseBody_slices hb
    exact ⟨3, .inl rfl, hn, by simp only [List.length_cons] at hle ⊢; omega, hs, hr⟩
  · obtain ⟨hn, hle, hs, hr⟩ := parseBody_slices hb
    exact ⟨6, .inr rfl, hn, by simp only [List.length_cons]; omega, hs, hr⟩

/-- With nonempty registered names a record takes at least 4 bytes (R139). -/
theorem four_le_of_parseRecord (hreg : ∀ e ∈ reg, e.1 ≠ []) (h : parseRecord reg bs = .ok (r, n)) :
    4 ≤ n := by
  obtain ⟨hd, hhd, hn, -, -, hb⟩ := parseRecord_slices h
  have := List.length_pos_iff.mpr (type_ne_nil_of_buildRecord hreg hb)
  omega

end record

section message
variable {reg : List (List Byte × Variant)} {bs : List Byte} {r : Record} {n : Nat} {cause : DecodeCause}

/-- The loop with enough fuel is the whole parse. -/
theorem parseLoop_eq_msgParse {fuel : Nat} (h : bs.length ≤ fuel) :
    parseLoop reg fuel bs = msgParse reg bs :=
  parseLoop_fuel _ _ bs h (Nat.le_refl _)

/-- The first record's failure is the answer (R139). -/
theorem msgParse_record_err (hne : bs ≠ []) (h : parseRecord reg bs = .err cause) :
    msgParse reg bs = .err cause := by
  obtain ⟨b, rest, rfl⟩ := List.exists_cons_of_ne_nil hne
  simp [msgParse, parseLoop, h]

/-- After the first record, the parse goes on where it ends (R139). -/
theorem msgParse_record_ok (hne : bs ≠ []) (h : parseRecord reg bs = .ok (r, n)) :
    msgParse reg bs =
      match msgParse reg (bs.drop n) with
      | .err cause => .err cause
      | .ok m => .ok (r :: m) := by
  obtain ⟨b, rest, rfl⟩ := List.exists_cons_of_ne_nil hne
  have hlen : ((b :: rest).drop n).length ≤ rest.length := by
    have := parseRecord_pos h
    simp only [List.length_drop, List.length_cons]
    omega
  rw [← parseLoop_eq_msgParse hlen]
  cases hl : parseLoop reg rest.length ((b :: rest).drop n) <;> simp [msgParse, parseLoop, h, hl]

end message

section serialize
variable {reg : List (List Byte × Variant)} {r : Record}

/-- One length byte holds a length up to 255 (R137). -/
theorem lengthByte_toNat {n : Nat} (h : n ≤ 255) : (BitVec.ofNat 8 n).toNat = n := by
  rw [BitVec.toNat_ofNat, Nat.mod_eq_of_lt (by omega)]

/-- The four length bytes assemble to the length (R137). -/
theorem be32_be32Bytes {n : Nat} (h : n < 4294967296) :
    be32 (BitVec.ofNat 8 (n / 16777216)) (BitVec.ofNat 8 (n / 65536)) (BitVec.ofNat 8 (n / 256))
      (BitVec.ofNat 8 n) = n := by
  simp only [be32, BitVec.toNat_ofNat]
  omega

/-- The header that `SerializeRecord` writes (R145). -/
def recordHeader (r : Record) (isFirst isLast : Bool) : Header where
  messageBegin := isFirst
  messageEnd := isLast
  chunked := false
  shortRecord := decide (r.payload.length < 256)
  idLengthPresent := false
  tnf := r.tnf

/-- A payload under 256 bytes is written in the short form (R145). -/
theorem serializeRecord_short (f l : Bool) (h : r.payload.length < 256) :
    serializeRecord r f l = (recordHeader r f l).toByte :: BitVec.ofNat 8 r.type.length ::
      BitVec.ofNat 8 r.payload.length :: (r.type ++ r.payload) := by
  simp [serializeRecord, recordHeader, h]

/-- A longer payload is written in the long form (R145). -/
theorem serializeRecord_long (f l : Bool) (h : ¬ r.payload.length < 256) :
    serializeRecord r f l = (recordHeader r f l).toByte :: BitVec.ofNat 8 r.type.length ::
      BitVec.ofNat 8 (r.payload.length / 16777216) :: BitVec.ofNat 8 (r.payload.length / 65536) ::
      BitVec.ofNat 8 (r.payload.length / 256) :: BitVec.ofNat 8 r.payload.length ::
      (r.type ++ r.payload) := by
  simp [serializeRecord, recordHeader, h, be32Bytes]

/-- Behind any bytes, a serialized record is read back, and it takes exactly its own bytes (R145, R150
item 4). -/
theorem parseRecord_serializeRecord (f l : Bool) (tail : List Byte) (hne : r.type ≠ [])
    (ht : r.type.length ≤ 255) (hp : r.payload.length < 4294967296)
    (hb : buildRecord reg r.type r.payload = .ok r) :
    parseRecord reg (serializeRecord r f l ++ tail) = .ok (r, (serializeRecord r f l).length) := by
  by_cases hs : r.payload.length < 256
  · have hsr : (recordHeader r f l).shortRecord = true := decide_eq_true hs
    rw [serializeRecord_short f l hs, List.cons_append, List.cons_append, List.cons_append,
      parseRecord_short (by rwa [fromByte_toByte]) (by simp [hne]), lengthByte_toNat ht,
      lengthByte_toNat (by omega), List.append_assoc, parseBody_append 3 hb]
    congr 2
    simp only [List.length_cons, List.length_append]
    omega
  · have hsr : (recordHeader r f l).shortRecord = false := decide_eq_false hs
    rw [serializeRecord_long f l hs]
    simp only [List.cons_append]
    rw [parseRecord_long (by rwa [fromByte_toByte]), lengthByte_toNat ht, be32_be32Bytes hp,
      List.append_assoc, parseBody_append 6 hb]
    congr 2
    simp only [List.length_cons, List.length_append]
    omega

theorem serializeRecord_ne_nil (r : Record) (f l : Bool) : serializeRecord r f l ≠ [] :=
  List.cons_ne_nil _ _

/-- The first record is written before the others, and ends the message when there are none (R145). -/
theorem serializeFrom_cons (f : Bool) (r : Record) (m : List Record) :
    serializeFrom f (r :: m) = serializeRecord r f m.isEmpty ++ serializeFrom false m := by
  cases m with
  | nil => exact (List.append_nil _).symm
  | cons r' m => rfl

/-- The records of a message are read back from wherever in it they start (R150 item 4). -/
theorem msgParse_serializeFrom (hreg : ∀ e ∈ reg, e.1 ≠ []) (f : Bool) (m : List Record)
    (h : ∀ r ∈ m, r.type.length ≤ 255 ∧ r.payload.length < 4294967296 ∧
      buildRecord reg r.type r.payload = .ok r) :
    msgParse reg (serializeFrom f m) = .ok m := by
  induction m generalizing f with
  | nil => rfl
  | cons r m ih =>
    obtain ⟨⟨ht, hp, hb⟩, hm⟩ := List.forall_mem_cons.mp h
    have hr := parseRecord_serializeRecord f m.isEmpty (serializeFrom false m)
      (type_ne_nil_of_buildRecord hreg hb) ht hp hb
    have hne := List.append_ne_nil_of_left_ne_nil (serializeRecord_ne_nil r f m.isEmpty)
      (serializeFrom false m)
    rw [serializeFrom_cons, msgParse_record_ok hne hr, List.drop_left, ih false hm]

end serialize

section uri
variable {uri pre : List Byte}

theorem isPrefixNoCase_iff : isPrefixNoCase pre uri = true ↔
    pre.length ≤ uri.length ∧ (uri.take pre.length).map lowerByte = pre.map lowerByte := by
  simp [isPrefixNoCase]

/-- A matching entry put back in the table's spelling gives the URI up to the case of ASCII letters (log 28). -/
theorem map_lowerByte_append_drop (h : isPrefixNoCase pre uri = true) :
    (pre ++ uri.drop pre.length).map lowerByte = uri.map lowerByte := by
  rw [List.map_append, ← (isPrefixNoCase_iff.mp h).2, ← List.map_append, List.take_append_drop]

/-- The scan's index is that of the first matching entry (R142, C4). -/
theorem uriIndexFrom_eq (uri : List Byte) (k : Nat) (table : List (List Byte)) :
    uriIndexFrom uri k table = ((table.findIdx? (isPrefixNoCase · uri)).map (k + ·)).getD 0 := by
  induction table generalizing k with
  | nil => rfl
  | cons pre table ih =>
    cases h : isPrefixNoCase pre uri with
    | true => simp [uriIndexFrom, List.findIdx?_cons, h]
    | false =>
      simp [uriIndexFrom, List.findIdx?_cons, h, ih, Function.comp_def, Nat.add_assoc, Nat.add_comm 1]

/-- The URI's index is 0 with no matching entry from 1 on, or the first table index of one (R142, C4). -/
theorem uriIndex_cases (uri : List Byte) :
    (uriIndex uri = 0 ∧ ∀ j pre, uriTable[j + 1]? = some pre → isPrefixNoCase pre uri = false) ∨
      ∃ i pre, uriIndex uri = i + 1 ∧ uriTable[i + 1]? = some pre ∧ isPrefixNoCase pre uri = true ∧
        ∀ j q, j < i → uriTable[j + 1]? = some q → isPrefixNoCase q uri = false := by
  have hdrop (j : Nat) : uriTable[j + 1]? = (uriTable.drop 1)[j]? := by
    rw [List.getElem?_drop, Nat.add_comm]
  simp only [hdrop]
  rw [uriIndex, uriIndexFrom_eq]
  cases h : (uriTable.drop 1).findIdx? (isPrefixNoCase · uri) with
  | none =>
    exact .inl ⟨rfl, fun j pre hj => List.findIdx?_eq_none_iff.mp h pre (List.mem_of_getElem? hj)⟩
  | some i =>
    obtain ⟨hi, hp, hfirst⟩ := List.findIdx?_eq_some_iff_getElem.mp h
    refine .inr ⟨i, _, Nat.add_comm 1 i, List.getElem?_eq_getElem hi, hp, fun j q hj hq => ?_⟩
    obtain ⟨-, rfl⟩ := List.getElem?_eq_some_iff.mp hq
    simpa using hfirst j hj

theorem uriTable_length : uriTable.length = 36 := rfl

/-- An index of the table selects its entry (R142). -/
theorem uriDecode_of_getElem? {i : Byte} (h : uriTable[i.toNat]? = some pre) (rest : List Byte) :
    uriDecode (i :: rest) = .ok (.uri i.toNat rest (pre ++ rest)) := by
  have hi : ¬ 35 < i.toNat := by
    have := (List.getElem?_eq_some_iff.mp h).1
    rw [uriTable_length] at this
    omega
  simp [uriDecode, hi, h]

/-- An index past the table is index 0, whose entry is empty (R142). -/
theorem uriDecode_clamped {i : Byte} (h : 35 < i.toNat) (rest : List Byte) :
    uriDecode (i :: rest) = .ok (.uri 0 rest rest) := by
  simp only [uriDecode, if_pos h]
  rfl

/-- The encoding of a URI decodes to its index, the URI without the entry of that index, and that entry put
back (R142, R151). -/
theorem uriDecode_uriEncodePayload (h : uriTable[uriIndex uri]? = some pre) :
    uriDecode (uriEncodePayload uri) =
      .ok (.uri (uriIndex uri) (uri.drop pre.length) (pre ++ uri.drop pre.length)) := by
  have hk : (BitVec.ofNat 8 (uriIndex uri)).toNat = uriIndex uri := by
    have := (List.getElem?_eq_some_iff.mp h).1
    rw [uriTable_length] at this
    exact lengthByte_toNat (by omega)
  have hd := uriDecode_of_getElem? (i := BitVec.ofNat 8 (uriIndex uri)) (hk.symm ▸ h)
    (uri.drop pre.length)
  rw [hk] at hd
  simpa [uriEncodePayload, h] using hd

end uri

/-- Settles O48: `msgParse_serializeFrom` from the first record on. -/
theorem parseInvertsSerialize : Obligations.ParseInvertsSerialize := by
  unfold Obligations.ParseInvertsSerialize
  intro reg m hreg hm
  exact msgParse_serializeFrom hreg true m hm

/-- Settles O45: the loop's two moves, and the bytes that a record takes. -/
theorem messageIsParsedRecordByRecord : Obligations.MessageIsParsedRecordByRecord := by
  unfold Obligations.MessageIsParsedRecordByRecord
  intro reg
  refine ⟨rfl, fun bs hne => ?_, fun bs h => ⟨4, bs.length, parseRecord_truncated h⟩,
    fun hreg bs r n => four_le_of_parseRecord hreg⟩
  cases hr : parseRecord reg bs with
  | err cause => exact msgParse_record_err hne hr
  | ok rn => exact msgParse_record_ok hne hr

/-- Settles O46: `parseRecord_slices`, and a check of the head or the body for each truncation. -/
theorem recordIsNeverReadOutOfBounds : Obligations.RecordIsNeverReadOutOfBounds := by
  unfold Obligations.RecordIsNeverReadOutOfBounds
  refine ⟨?_, ?_, ?_, ?_, ?_, ?_⟩
  · intro reg bs r n h
    obtain ⟨hd, hhd, hn, hle, hs, -⟩ := parseRecord_slices h
    exact ⟨hle, hd, hhd, hn, hs⟩
  · intro reg hdr tl l0 name tail hs hn ht h1
    rw [parseRecord_short hs (List.length_pos_iff.mp (by rwa [List.length_append]))]
    exact parseBody_payload_truncated 3 hn ht
  · intro reg hdr tl l0 l1 l2 l3 name tail hs hn ht
    rw [parseRecord_long hs]
    exact parseBody_payload_truncated 6 hn ht
  · intro reg hdr rest
    exact parseRecord_long_truncated
  · intro reg hdr tl l0 rest hs h1 ht
    rw [parseRecord_short hs (List.length_pos_iff.mp h1)]
    exact parseBody_name_truncated _ 3 ht
  · intro reg hdr tl l0 l1 l2 l3 rest hs ht
    rw [parseRecord_long hs]
    exact parseBody_name_truncated _ 6 ht

/-- Settles O47: without a whole head the header byte is not read, and else only its short-record flag is. -/
theorem otherHeaderBitsAreIgnored : Obligations.OtherHeaderBitsAreIgnored := by
  unfold Obligations.OtherHeaderBitsAreIgnored
  intro reg a b rest h
  match rest with
  | [] | [_] | [_, _] => rfl
  | _ :: _ :: _ :: _ => simp only [parseRecord, h, List.length_cons]

/-- Settles O52: the index is 0 with nothing stripped, or `uriIndex_cases` names the entry that is stripped
and put back. -/
theorem uriEncodingRoundTrips : Obligations.UriEncodingRoundTrips := by
  unfold Obligations.UriEncodingRoundTrips
  intro uri
  rcases uriIndex_cases uri with ⟨h0, hnone⟩ | ⟨i, pre, hi, hpre, hp, hfirst⟩
  · have hz : uriTable[uriIndex uri]? = some [] := by rw [h0]; rfl
    refine ⟨_, _, _, uriDecode_uriEncodePayload hz, rfl, fun _ => rfl, fun h => absurd h0 h, ?_⟩
    intro j pre hj _ hpre
    obtain ⟨j, rfl⟩ := Nat.exists_eq_add_of_le' hj
    exact hnone j pre hpre
  · rw [← hi] at hpre
    refine ⟨_, _, _, uriDecode_uriEncodePayload hpre, map_lowerByte_append_drop hp, by omega,
      fun _ => ⟨pre, hpre, hp⟩, ?_⟩
    intro j q hj hlt hq
    obtain ⟨j, rfl⟩ := Nat.exists_eq_add_of_le' hj
    exact hfirst j q (by omega) hq

/-- Settles O44: both round trips and the weights, each over the 256 bytes or headers. -/
theorem headerByteRoundTrips : Obligations.HeaderByteRoundTrips := by
  unfold Obligations.HeaderByteRoundTrips
  exact ⟨fun b => ⟨toByte_fromByte b, fromByte_toByte _⟩, fromByte_toByte, toByte_toNat⟩

/-- Settles O49: the first record's head is already truncated. -/
theorem shortMessagePayloadIsTruncated : Obligations.ShortMessagePayloadIsTruncated := by
  unfold Obligations.ShortMessagePayloadIsTruncated
  intro reg bs h1 h3
  exact msgParse_record_err (List.length_pos_iff.mp h1) (parseRecord_truncated (by omega))

/-- Settles O50: the Text payload by its first 3 bytes, the URI payload by its index. -/
theorem variantsDecodeTheirPayloads : Obligations.VariantsDecodeTheirPayloads := by
  unfold Obligations.VariantsDecodeTheirPayloads
  refine ⟨?_, fun _ _ _ _ => rfl, rfl, ?_, fun i rest h => uriDecode_clamped h rest, fun _ => rfl,
    rfl, rfl, rfl⟩
  · intro q h
    match q, h with
    | [], _ | [_], _ | [_, _], _ => rfl
  · intro i rest h
    have hlt : i.toNat < uriTable.length := by rw [uriTable_length]; omega
    exact ⟨_, List.getElem?_eq_getElem hlt, uriDecode_of_getElem? (List.getElem?_eq_getElem hlt) rest⟩

/-- Settles O51: the factory of a name that is registered for Android takes every payload. -/
theorem androidRecordIsATransparentCopy : Obligations.AndroidRecordIsATransparentCopy := by
  unfold Obligations.AndroidRecordIsATransparentCopy
  refine ⟨fun reg name q h => buildRecord_of_lookup h rfl, fun v => ?_⟩
  cases v <;> decide

end Sys2Proof.Machine
end

section
/-! Proofs for 60_exceptions.md (R164 to R166): which byte raises a decode error, and with which cause. -/

namespace Sys2Proof.Machine

section decodeError
variable {p : Params} {S : Session} {b : Byte} {c : DecodeCause}

/-- The codec's reply is a decode error exactly when the parse of the payload fails with its cause (R164). -/
theorem codecReply_eq_decode_iff {raw : List Byte} :
    codecReply p raw = .error (.decode c) ↔ msgParse p.registry raw = .err c := by
  cases h : msgParse p.registry raw with
  | ok m => simp [codecReply_ok h]
  | err c' => simp [codecReply_err h]

/-- The reference codec never refuses the empty payload (43_message_codec_port.md R139). -/
theorem ne_nil_of_msgParse_err {reg : List (List Byte × Variant)} {raw : List Byte}
    (h : msgParse reg raw = .err c) : raw ≠ [] := by
  rintro rfl
  cases h

/-- A decode error is the codec's own error on the payload that the byte completes (R164). -/
theorem msgParse_err_of_decStep (h : .error (.decode c) ∈ (decStep p S b).2) :
    msgParse p.registry (completedPayload S b) = .err c := by
  rw [← codecReply_eq_decode_iff]
  obtain hnone | ⟨x, hown, hx⟩ | hreply := decStep_oneEventAtMost p S b
  · simp [hnone] at h
  · obtain rfl : .error (.decode c) = x := by simpa [hown] using h
    cases hx
  · simpa [hreply, eq_comm] using h

/-- No byte raises the cause that R165 keeps unused: no codec's reply has it. -/
theorem unexpectedResponseCode_notMem_decStep (p : Params) (S : Session) (b : Byte) :
    .error (.decode .unexpectedResponseCode) ∉ (decStep p S b).2 :=
  fun h => parseLoop_err (msgParse_err_of_decStep h) rfl

/-- Nor does any run. -/
theorem unexpectedResponseCode_notMem_decRun (p : Params) (S : Session) (w : List Byte) :
    .error (.decode .unexpectedResponseCode) ∉ (decRun p S w).2 := by
  induction w generalizing S with
  | nil => exact List.not_mem_nil
  | cons b w ih =>
    rw [decRun_cons, List.mem_append, not_or]
    exact ⟨unexpectedResponseCode_notMem_decStep p S b, ih _⟩

/-- Of the completions only a MESSAGE's asks the codec (R85). -/
theorem kind_message_of_decode_mem_complete (h : .error (.decode c) ∈ (complete p S).2) :
    S.kind = .message := by
  cases hk : S.kind with
  | message => rfl
  | data => simp [complete_data p S hk] at h
  | version => simp [complete_version p S hk] at h
  | none | ack | error | interrupt => simp [complete, hk] at h

/-- Inside a payload a decode error comes with the completion of a MESSAGE alone: the byte fills the payload,
and the session returns to Idle (R84, R166). -/
theorem lastByte_of_decode_mem_data (hs : S.state = .awaitingData)
    (h : .error (.decode c) ∈ (decStep p S b).2) :
    S.kind = .message ∧ S.buf.length + 1 = S.explen.toNat ∧ (decStep p S b).1 = S.toIdle := by
  by_cases hz : S.explen = 0
  · simp [decStep_data_hang hs hz] at h
  · rw [decStep_data_nonzero hs hz] at h ⊢
    split at h
    · rename_i hlast
      rw [if_pos hlast, complete_session]
      exact ⟨kind_message_of_decode_mem_complete (S := { S with buf := S.buf ++ [b] }) h, hlast, rfl⟩
    · simp at h

end decodeError

/-- Settles O35: the codec's causes for the runs, `decStep_idle_text` for the text byte. -/
theorem unexpectedResponseCodeIsNeverRaised : Obligations.UnexpectedResponseCodeIsNeverRaised := by
  unfold Obligations.UnexpectedResponseCodeIsNeverRaised
  refine ⟨unexpectedResponseCode_notMem_decRun, fun p S b hs hb => ?_, rfl, fun c hc => ?_⟩
  · rw [decStep_idle_text hs (classify_eq_none_iff.mp hb)]
    split
    · exact .inr ⟨rfl, rfl⟩
    · exact .inl ⟨rfl, rfl⟩
  · cases c with
    | unexpectedResponseCode => rfl
    | truncatedStream _ _ | unknownRecordType _ | malformedRecordPayload => simp [DecodeCause.code] at hc

/-- Settles O36: the codec refuses no empty payload, so the byte stands inside a payload and fills it. -/
theorem onlyAMessagesLastByteRaisesAnError : Obligations.OnlyAMessagesLastByteRaisesAnError := by
  unfold Obligations.OnlyAMessagesLastByteRaisesAnError
  intro p S b c ⟨hst, _⟩ h
  have herr := msgParse_err_of_decStep h
  have hs : S.state = .awaitingData := Decidable.byContradiction fun hs =>
    ne_nil_of_msgParse_err herr (by rw [completedPayload_eq, if_neg hs])
  obtain ⟨-, hi, -⟩ := dataInv_iff.mp ((stateInv_data hs).mp hst)
  obtain ⟨hk, hlast, hidle⟩ := lastByte_of_decode_mem_data hs h
  rw [completedPayload_eq, if_pos hs] at herr
  exact ⟨hk, hidle.trans (toIdle_eq_reset S hi), .inl ⟨hs, hlast, herr⟩⟩

end Sys2Proof.Machine
end

section
/-! Proofs for 70_reset_and_hazards.md (R185 to R187, R196): how a frame in progress ends, that the
parameters are static, and what reset drops. -/

namespace Sys2Proof.Machine

/-- The two ways a byte of a frame in progress goes: the frame waits for more without an event, or its event
is delivered and the session is the reset session (R187, 10_state.md R35). -/
def WaitsOrEnds (r : Session × List Event) : Prop :=
  (r.1.state ≠ .idle ∧ r.2 = []) ∨ (r.1 = Session.reset ∧ r.2.length = 1)

/-- Idle, the one event and the reset session come together. -/
theorem WaitsOrEnds.idle_iff {r : Session × List Event} (h : WaitsOrEnds r) :
    (r.1.state = .idle ↔ r.2.length = 1) ∧ (r.1.state = .idle → r.1 = Session.reset) := by
  obtain ⟨hs, he⟩ | ⟨hr, he⟩ := h
  · exact ⟨by simp [hs, he], fun h => absurd h hs⟩
  · exact ⟨by simp [hr, he], fun _ => hr⟩

section frame
variable {p : Params} {S : Session} {b : Byte}

/-- The completion of a payload delivers its one event and, with no text pending, resets the session
(40_decoder_step.md R85). -/
theorem complete_ends (hk : S.kind = .message ∨ S.kind = .data ∨ S.kind = .version) (hi : S.info = []) :
    WaitsOrEnds (complete p S) := by
  have hreset := toIdle_eq_reset S hi
  obtain hk | hk | hk := hk
  · rw [complete_message p S hk]; exact .inr ⟨hreset, rfl⟩
  · rw [complete_data p S hk]; exact .inr ⟨hreset, rfl⟩
  · rw [complete_version p S hk]; exact .inr ⟨hreset, rfl⟩

theorem stepLength_waits_or_ends (hs : S.state = .awaitingLength) (hk : S.kind = .message)
    (hi : S.info = []) : WaitsOrEnds (stepLength p S b) := by
  cases hb : S.buf with
  | nil =>
    rw [stepLength_first p S b hb]
    exact .inl ⟨by simp [hs], rfl⟩
  | cons high t =>
    rw [stepLength_second p S b hb]
    split
    · exact complete_ends (.inl hk) hi
    · exact .inl ⟨nofun, rfl⟩

theorem stepData_waits_or_ends (hs : S.state = .awaitingData)
    (hk : S.kind = .message ∨ S.kind = .data ∨ S.kind = .version) (hi : S.info = []) :
    WaitsOrEnds (stepData p S b) := by
  have hwait : S.state ≠ .idle := by simp [hs]
  by_cases hz : S.explen = 0
  · rw [stepData_zero p S b hz, stepHang_eq]
    exact .inl ⟨hwait, rfl⟩
  · rw [stepData_nonzero p S b hz]
    split
    · exact complete_ends hk hi
    · exact .inl ⟨hwait, rfl⟩

/-- A format I frame always ends with its one byte (R86). -/
theorem stepInfoByte_ends (hk : S.kind = .ack ∨ S.kind = .error ∨ S.kind = .interrupt)
    (hi : S.info = []) : WaitsOrEnds (stepInfoByte S b) := by
  have hone : (infoByteEvent S.kind b).length = 1 := by
    obtain hk | hk | hk := hk <;> rw [hk] <;> rfl
  rw [stepInfoByte_eq]
  exact .inr ⟨toIdle_eq_reset S hi, hone⟩

/-- A frame in progress ends only by completing (R187). -/
theorem decStep_waits_or_ends (h : S.Inv p) (hs : S.state ≠ .idle) : WaitsOrEnds (decStep p S b) := by
  obtain ⟨hst, -⟩ := h
  cases hstate : S.state with
  | idle => exact absurd hstate hs
  | awaitingLength =>
    obtain ⟨hk, -, hi⟩ := (stateInv_length hstate).mp hst
    rw [decStep_length p S b hstate]
    exact stepLength_waits_or_ends hstate hk hi
  | awaitingData =>
    obtain ⟨hk, hi, -⟩ := dataInv_iff.mp ((stateInv_data hstate).mp hst)
    rw [decStep_data p S b hstate]
    exact stepData_waits_or_ends hstate hk hi
  | awaitingInfoByte =>
    obtain ⟨hk, -, hi⟩ := (stateInv_infoByte hstate).mp hst
    rw [decStep_infoByte p S b hstate]
    exact stepInfoByte_ends hk hi

end frame

section static
variable {e : EdgeIn} {s t : State}

/-- At a reset edge the other inputs are not looked at (20_memory.md R50). -/
theorem clockEdge_reset (hr : e.rst = true) :
    clockEdge e s = .next { s with free := s.free + 1 }.applyReset := by
  simp [clockEdge, hr]

/-- A command writes TX alone; a byte writes the session and the delivered events. -/
theorem step_par (h : step s = .next t) : t.par = s.par := by
  obtain ⟨c, cmd, -, hs⟩ | ⟨b, rx, -, -, hs⟩ | ⟨-, -, hs⟩ := step_cases s
  · rw [hs, exec_encode] at h
    cases h
    rfl
  · obtain ⟨-, rfl⟩ := feed_next (hs.symm.trans h)
    rfl
  · cases hs.symm.trans h
    rfl

theorem afterMove_par (s : State) (m : HostMove) : (s.afterMove m).par = s.par := by
  cases m with
  | reset => exact applyReset_par s
  | push _ | takeEvent | submit _ | drain _ => rfl

theorem takeByte_par {b : Byte} (h : takeByte b s = .next t) : t.par = s.par := by
  obtain ⟨-, ⟨-, rfl⟩ | ⟨_, _, -, ⟨-, rfl⟩ | ⟨-, rfl⟩⟩⟩ := takeByte_next h <;> rfl

theorem decoderEdge_par (h : decoderEdge e s = .next t) : t.par = s.par := by
  obtain rfl | ⟨_, -, -, rfl⟩ | ⟨_, -, -, -, rfl⟩ | ⟨-, -, -, htake⟩ := decoderEdge_next h
  · rfl
  · rfl
  · rfl
  · exact takeByte_par htake

theorem clockEdge_par (h : clockEdge e s = .next t) : t.par = s.par := by
  cases hr : e.rst with
  | true =>
    cases (clockEdge_reset hr).symm.trans h
    rfl
  | false =>
    obtain ⟨_, _, hedge⟩ := clockEdge_eq_decoderEdge (s := s) hr
    simpa using decoderEdge_par (hedge.symm.trans h)

end static

/-- Settles O11: in each state of a frame a byte is waited on or ends the frame. -/
theorem frameEndsOnlyByCompletion : Obligations.FrameEndsOnlyByCompletion := by
  unfold Obligations.FrameEndsOnlyByCompletion
  exact fun _ _ _ h hs => (decStep_waits_or_ends h hs).idle_iff

/-- Settles O29: neither agent, no host move and no half of an edge writes the parameters. -/
theorem parametersAreStatic : Obligations.ParametersAreStatic := by
  unfold Obligations.ParametersAreStatic
  exact ⟨fun _ _ => step_par, afterMove_par, fun _ _ _ => clockEdge_par⟩

/-- Settles O38: the host's move and a reset edge are the same reset of the state. -/
theorem resetDropsWhatIsPending : Obligations.ResetDropsWhatIsPending := by
  unfold Obligations.ResetDropsWhatIsPending
  exact ⟨fun _ => rfl, fun _ _ => clockEdge_reset⟩

end Sys2Proof.Machine
end

section
/-! Proofs for the host's table words (log 21): what a word decodes to, and what the next step runs once it
is placed. -/

namespace Sys2Proof

/-- The word of an inbound row is read by the frame decoder from the frame it is laid out as. -/
theorem decodeTableWord_inbound {nbits w : Nat} {i : Instr} (hn : isOutboundWord nbits = false)
    (h : decodeTableWord nbits w = some i) : ∃ rest, decode (layoutInbound nbits w) = .frame i rest := by
  cases hd : decode (layoutInbound nbits w) with
  | frame j rest =>
    have hj : j = i := by simpa [decodeTableWord, hn, hd] using h
    exact ⟨rest, by rw [hj]⟩
  | reject why => simp [decodeTableWord, hn, hd] at h

/-- The word of the outbound row holds the preamble alone, whichever markers it shows: the empty command. -/
theorem decodeTableWord_outbound {nbits : Nat} (w : Nat) (hn : isOutboundWord nbits = true) :
    decodeTableWord nbits w = some (.encode []) := by
  have hbits : nbits = 16 := by simpa [isOutboundWord] using hn
  subst hbits
  have hbytes : wordBytes 16 w = encode (BitVec.ofNat 8 w) (BitVec.ofNat 8 (w >>> 8)) (.encode []) := rfl
  simp only [decodeTableWord, hn, if_true, hbytes]
  exact decodeOutbound_encode _ _ []

end Sys2Proof

namespace Sys2Proof.Machine

/-- The step after the word of an inbound row is the instruction's meaning at the frame's start: the bytes
received before and the one the step takes are the whole frame. -/
theorem step_withFetchWord_inbound {nbits w : Nat} {i : Instr} {rest : List Byte} (s : State)
    (hn : isOutboundWord nbits = false) (hd : decode (layoutInbound nbits w) = .frame i rest) :
    step (s.withFetchWord nbits w) = exec i { s with session := s.session.atBoundary, cmd := [] } := by
  obtain ⟨hw, hi, -⟩ := decode_frame hd
  have hplaced : s.withFetchWord nbits w = placeFrame s (encode s.par.mark0 s.par.mark1 i) := by
    simp [State.withFetchWord, placeWord, hn, hd]
  rw [hplaced, step_placeFrame s _ (encode_ne_nil _ _ i), exec_inbound hw hi]

/-- The step after the word of the outbound row encodes the empty command under the markers of the word;
the commands that waited before wait on. -/
theorem step_withFetchWord_outbound {nbits : Nat} (w : Nat) (s : State) (hn : isOutboundWord nbits = true) :
    step (s.withFetchWord nbits w) = exec (.encode []) { s with par := { s.par with
      mark0 := (wordBytes nbits w).getD 0 0, mark1 := (wordBytes nbits w).getD 1 0 } } := by
  have hplaced : s.withFetchWord nbits w = placeCommand s nbits w := by
    simp [State.withFetchWord, placeWord, hn]
  rw [hplaced]
  exact step_command (cmd := s.cmd) rfl

/-- Settles O8: the width tells the row, and each row's placement is what the next step takes. -/
theorem placedTableWordRunsNext : Obligations.PlacedTableWordRunsNext := by
  unfold Obligations.PlacedTableWordRunsNext
  intro s nbits w i h
  cases hn : isOutboundWord nbits with
  | true =>
    cases (decodeTableWord_outbound w hn).symm.trans h
    exact ⟨nofun, fun _ => step_withFetchWord_outbound w s hn⟩
  | false =>
    obtain ⟨rest, hd⟩ := decodeTableWord_inbound hn h
    obtain ⟨-, hi, -⟩ := decode_frame hd
    exact ⟨fun _ => step_withFetchWord_inbound s hn hd, fun hout => nomatch hi.symm.trans hout⟩

end Sys2Proof.Machine
end
